-- ==== Sys2Proof/Word.lean ====
section
/-! DEFINITION. The two word types of the block (00_scope.md rule R8): a byte of a buffer and the 32-bit word the
port moves. -/

namespace Sys2Proof

/-- A byte, 8 bits (R8). -/
abbrev Byte := BitVec 8

/-- A 32-bit register or command word (R21, R80). -/
abbrev Word := BitVec 32

end Sys2Proof
end

