-- ==== Sys2Proof/Config.lean ====
section
/-! DEFINITION. What is fixed for one instance of the block (00_scope.md rule R4) and the free values the spec leaves
unspecified (R10, R52, R73, R221). -/

namespace Sys2Proof

/-- The three byte buffers, each an address space of its own (20_memory.md rule R61). -/
inductive Space where
  /-- the input buffer IN (R40) -/
  | inp
  /-- the output buffer OUT (R41) -/
  | out
  /-- the keyed-hash buffer HASH (R42) -/
  | hash
  deriving DecidableEq, Repr

/-- The OPEN parameters of an instance (R4): `IN_SIZE` and `OUT_SIZE`, fixed for its whole life (R20). They are a field
of the state that no step changes, so a statement about every state holds for every size (log entry 1). -/
structure Params where
  inSize : Nat
  outSize : Nat
  deriving DecidableEq, Repr

/-- `HASH_MAX` (R4). -/
def hashMax : Nat := 64

/-- The largest length an unsigned register of `LENW` = 32 bits holds (R4, R116). -/
def lenMax : Nat := 2 ^ 32 - 1

/-- The size of a buffer in bytes (R61). -/
def Params.size (p : Params) : Space → Nat
  | .inp => p.inSize
  | .out => p.outSize
  | .hash => hashMax

/-- The sizes `State.reset` uses: 64 and 64, those of the spec's own programs (95_test_vectors.md section 9). The spec
leaves them open (R4): every other pair is an argument of `State.afterReset`. DESIGN CHOICE, log entry 1. -/
def Config.resetParams : Params := ⟨64, 64⟩

/-- A FREE VALUE: the byte an `unspecified` place of a buffer holds (R10, R52, R73, R221). It depends on the instance's
stream, on the draw that made the buffer unspecified, on the buffer and on the offset; nothing constrains it.
Log entry 2. -/
opaque Config.freeByte (stream draw : Nat) (sp : Space) (off : Nat) : Byte

end Sys2Proof
end

