-- ==== Sys2Proof/Syntax.lean ====
section
/-! DEFINITION. The commands of the block (the rows of spec/opcode_table.json), the names of its registers, and the
operations of its port. -/

namespace Sys2Proof

/-- The alphabet variant of a Base32 command, the VAR bit (R2, R80). -/
inductive Variant where
  /-- Standard, VAR = 0 -/
  | std
  /-- Extended-Hex, VAR = 1 -/
  | hex
  deriving DecidableEq, Repr

/-- The call shape of a Base32 command, the SHAPE field (R80). -/
inductive Shape where
  /-- fresh output, SHAPE = 0 -/
  | F
  /-- into a caller-supplied output, SHAPE = 1 -/
  | I
  /-- movable cursor, SHAPE = 2 -/
  | C
  deriving DecidableEq, Repr

/-- The ten commands (R83); the command word carries no operand but the variant (R87). -/
inductive Instr where
  /-- B32ENC.F (R117) -/
  | b32encF (v : Variant)
  /-- B32ENC.I (R118) -/
  | b32encI (v : Variant)
  /-- B32ENC.C (R119) -/
  | b32encC (v : Variant)
  /-- B32DEC.F (R146) -/
  | b32decF (v : Variant)
  /-- B32DEC.I (R147) -/
  | b32decI (v : Variant)
  /-- B32DEC.C (R148) -/
  | b32decC (v : Variant)
  /-- HTRUNC (R167) -/
  | htrunc
  /-- HFMT (R176) -/
  | hfmt
  /-- HCODE (R177) -/
  | hcode
  /-- CFGBUILD (R190) -/
  | cfgbuild
  deriving DecidableEq, Repr

/-- The fifteen named registers, indices 0 to 14 (R21). -/
inductive Reg where
  | cmd | status | einfo | inPos | inLimit | outCap | outLen | hashLen
  | bin | toff | code | cfgDigitsIn | cfgOffsetIn | cfgChecksumIn | cfg
  deriving DecidableEq, Repr

/-- The host's access to a register (R21): read-write, read-only, write-only. -/
inductive Access where
  | rw | ro | wo
  deriving DecidableEq, Repr

/-- The four operations of the port (R60). A register index is 32 bits wide; a buffer offset is a number. -/
inductive PortOp where
  | regWrite (idx w : Word)
  | regRead (idx : Word)
  | bufWrite (sp : Space) (off : Nat) (b : Byte)
  | bufRead (sp : Space) (off : Nat)
  deriving DecidableEq, Repr

/-- What the outside world can do to an instance: a port operation (R60), or an assertion of its reset input (R245). -/
inductive Event where
  | op (o : PortOp)
  | reset
  deriving DecidableEq, Repr

/-- A value the port hands back to the host: a register word or a buffer byte (R60, R265). -/
inductive ReadValue where
  | reg (w : Word)
  | byte (b : Byte)
  deriving DecidableEq, Repr

end Sys2Proof
end

