-- ==== Sys2Proof/WellFormed.lean ====
section
/-! DEFINITION. The checks on what the types alone do not rule out: the bounds of an instance's parameters (R4) and the
offsets of the port's buffer operations (R62). -/

namespace Sys2Proof

/-- The bounds of the OPEN parameters: 16 to 2^32 - 1 each (R4). -/
def Params.admitted (p : Params) : Bool :=
  decide (16 ≤ p.inSize) && decide (p.inSize < 2 ^ 32) && decide (16 ≤ p.outSize) && decide (p.outSize < 2 ^ 32)

/-- The parameters of a system, one entry for each instance: `N_INST`, their number, is at least 1, and each instance has
sizes in their bounds (R4). -/
def Params.systemAdmitted (ps : List Params) : Bool := decide (1 ≤ ps.length) && ps.all Params.admitted

/-- The port operations the block has a step for: a buffer offset lies inside its buffer (R62); every register index is
admitted, the reserved ones too (R39). -/
def PortOp.admitted (p : Params) : PortOp → Bool
  | .regWrite _ _ => true
  | .regRead _ => true
  | .bufWrite sp off _ => decide (off < p.size sp)
  | .bufRead sp off => decide (off < p.size sp)

/-- The events an instance has a step for. -/
def Event.admitted (p : Params) : Event → Bool
  | .op o => o.admitted p
  | .reset => true

/-- Every command is well formed: the only field a command word varies in is the variant bit, and both its values are
legal (R83). -/
def Instr.wellFormed : Instr → Bool
  | .b32encF _ => true
  | .b32encI _ => true
  | .b32encC _ => true
  | .b32decF _ => true
  | .b32decI _ => true
  | .b32decC _ => true
  | .htrunc => true
  | .hfmt => true
  | .hcode => true
  | .cfgbuild => true

end Sys2Proof
end

