-- ==== Sys2Proof/Decode.lean ====
section
/-! DEFINITION. The command word (30_encoding.md rules R80 to R85): the decoder, total on every 32-bit word; the
encoder; the opcode map of R83; the host's `decodeTableWord`. -/

namespace Sys2Proof

/-- Why a word is `Illegal` (R82, R84). Every reason is reported as `E_ILLCMD` alike (R219). -/
inductive Reject where
  /-- one of bits 31:7 is set -/
  | reservedBits
  /-- OP is 0 or 7 to 15 -/
  | reservedOp
  /-- SHAPE is 3 on a Base32 command -/
  | reservedShape
  /-- VAR or SHAPE is not 0 on HTRUNC, HFMT, HCODE or CFGBUILD -/
  | variantOrShapeSet
  deriving DecidableEq, Repr

/-- OP, bits 3:0 of a command word (R80). -/
def opField (w : Word) : BitVec 4 := w.extractLsb' 0 4

/-- VAR, bit 4 (R80). -/
def varField (w : Word) : BitVec 1 := w.extractLsb' 4 1

/-- SHAPE, bits 6:5 (R80). -/
def shapeField (w : Word) : BitVec 2 := w.extractLsb' 5 2

/-- Bits 31:7, which must be 0 (R80). -/
def reservedField (w : Word) : BitVec 25 := w.extractLsb' 7 25

/-- The variant a VAR bit selects (R80). -/
def variantOf (b : BitVec 1) : Variant := if b = 0#1 then .std else .hex

/-- A word whose OP is B32ENC or B32DEC: SHAPE selects among three commands, 3 is reserved (R82). -/
def decodeShape (f i c : Variant → Instr) (w : Word) : Except Reject Instr :=
  if shapeField w = 0#2 then .ok (f (variantOf (varField w)))
  else if shapeField w = 1#2 then .ok (i (variantOf (varField w)))
  else if shapeField w = 2#2 then .ok (c (variantOf (varField w)))
  else .error .reservedShape

/-- A word whose OP is 3 to 6: VAR and SHAPE must be 0 (R82). -/
def decodePlain (i : Instr) (w : Word) : Except Reject Instr :=
  if varField w = 0#1 ∧ shapeField w = 0#2 then .ok i else .error .variantOrShapeSet

/-- `DecodeCmd(w)` (R82). -/
def decodeCmd (w : Word) : Except Reject Instr :=
  if reservedField w ≠ 0#25 then .error .reservedBits
  else if opField w = 1#4 then decodeShape .b32encF .b32encI .b32encC w
  else if opField w = 2#4 then decodeShape .b32decF .b32decI .b32decC w
  else if opField w = 3#4 then decodePlain .htrunc w
  else if opField w = 4#4 then decodePlain .hfmt w
  else if opField w = 5#4 then decodePlain .hcode w
  else if opField w = 6#4 then decodePlain .cfgbuild w
  else .error .reservedOp

/-- The VAR bit of a variant (R80). -/
def varBit : Variant → BitVec 1
  | .std => 0#1
  | .hex => 1#1

/-- A command word from its fields SHAPE, VAR and OP, bits 31:7 being 0 (R80). -/
def cmdWord (shape : BitVec 2) (var : BitVec 1) (op : BitVec 4) : Word := 0#25 ++ shape ++ var ++ op

/-- The word of a command, from the columns SHAPE, VAR and OP of R83. -/
def encode : Instr → Word
  | .b32encF v => cmdWord 0#2 (varBit v) 1#4
  | .b32encI v => cmdWord 1#2 (varBit v) 1#4
  | .b32encC v => cmdWord 2#2 (varBit v) 1#4
  | .b32decF v => cmdWord 0#2 (varBit v) 2#4
  | .b32decI v => cmdWord 1#2 (varBit v) 2#4
  | .b32decC v => cmdWord 2#2 (varBit v) 2#4
  | .htrunc => cmdWord 0#2 0#1 3#4
  | .hfmt => cmdWord 0#2 0#1 4#4
  | .hcode => cmdWord 0#2 0#1 5#4
  | .cfgbuild => cmdWord 0#2 0#1 6#4

/-- One row of the opcode map: a word `w` selects it when `w & mask = pat` (R83). -/
structure Row where
  mask : Word
  pat : Word
  deriving DecidableEq, Repr

/-- The mask and match columns of R83, by command. -/
def rowOf : Instr → Row
  | .b32encF _ => ⟨0xFFFFFFEF#32, 0x00000001#32⟩
  | .b32encI _ => ⟨0xFFFFFFEF#32, 0x00000021#32⟩
  | .b32encC _ => ⟨0xFFFFFFEF#32, 0x00000041#32⟩
  | .b32decF _ => ⟨0xFFFFFFEF#32, 0x00000002#32⟩
  | .b32decI _ => ⟨0xFFFFFFEF#32, 0x00000022#32⟩
  | .b32decC _ => ⟨0xFFFFFFEF#32, 0x00000042#32⟩
  | .htrunc => ⟨0xFFFFFFFF#32, 0x00000003#32⟩
  | .hfmt => ⟨0xFFFFFFFF#32, 0x00000004#32⟩
  | .hcode => ⟨0xFFFFFFFF#32, 0x00000005#32⟩
  | .cfgbuild => ⟨0xFFFFFFFF#32, 0x00000006#32⟩

/-- The ten rows of R83, in its order. -/
def opcodeMap : List Row :=
  [rowOf (.b32encF .std), rowOf (.b32encI .std), rowOf (.b32encC .std), rowOf (.b32decF .std), rowOf (.b32decI .std),
    rowOf (.b32decC .std), rowOf .htrunc, rowOf .hfmt, rowOf .hcode, rowOf .cfgbuild]

/-- Whether a word selects a row (R83). -/
def Row.selects (r : Row) (w : Word) : Bool := w &&& r.mask = r.pat

/-- The instruction the decoder reads from an opcode-table word of `nbits` bits, bit 0 least significant; a command word
is delivered whole, so no byte order enters (R63, R80). -/
def decodeTableWord (nbits w : Nat) : Option Instr :=
  match decodeCmd (BitVec.ofNat 32 (w % 2 ^ nbits)) with
  | .ok i => some i
  | .error _ => none

end Sys2Proof
end

