-- ==== Sys2Proof/Machine/State.lean ====
section
/-! DEFINITION. The state of one instance of the block (10_state.md rules R20 to R42), its value after reset (R52, R245),
and the two ways a step can stop. -/

namespace Sys2Proof.Machine

/-- The bytes of a buffer that have a definite value: offsets strictly rising, one entry each. An offset that is not
listed has no definite value; it reads as a free value (R52, R73, log entries 2 and 3). -/
abbrev Memory := List Host.Cell

/-- One byte buffer: its definite bytes, and the number of the draw that made the others unspecified (R73, R221). -/
structure Buffer where
  mem : Memory
  draw : Nat
  deriving DecidableEq, Repr

/-- The state. Registers hold exactly the state bits of R21, except CFG, which is kept as the 32-bit word of R37 (its
bits 30:10 are 0 by the invariant R38, log entry 8). CMD and index 15 hold no state (R22, R39). The last five fields are the model's
own: `stream` and `draws` name the free values (log entry 2), `port` and `trace` are the host's side of the port (log
entry 4), `par` holds the instance's parameters (log entry 1). -/
structure State where
  /-- STATUS, idx 1: bits 7:0 (R23) -/
  status : BitVec 8
  /-- EINFO, idx 2 (R24) -/
  einfo : Word
  /-- IN_POS, idx 3 (R25) -/
  inPos : Word
  /-- IN_LIMIT, idx 4 (R26) -/
  inLimit : Word
  /-- OUT_CAP, idx 5 (R27) -/
  outCap : Word
  /-- OUT_LEN, idx 6 (R28) -/
  outLen : Word
  /-- HASH_LEN, idx 7 (R29) -/
  hashLen : Word
  /-- BIN, idx 8: 31 bits (R30) -/
  bin : BitVec 31
  /-- TOFF, idx 9: 4 bits (R32) -/
  toff : BitVec 4
  /-- CODE, idx 10 (R33) -/
  code : Word
  /-- CFG_DIGITS_IN, idx 11 (R34) -/
  cfgDigitsIn : Word
  /-- CFG_OFFSET_IN, idx 12 (R35) -/
  cfgOffsetIn : Word
  /-- CFG_CHECKSUM_IN, idx 13: 1 bit (R36) -/
  cfgChecksumIn : BitVec 1
  /-- CFG, idx 14 (R37) -/
  cfg : Word
  /-- IN (R40) -/
  inp : Buffer
  /-- OUT (R41) -/
  out : Buffer
  /-- HASH (R42) -/
  hash : Buffer
  /-- the instance's parameters (R4, R20) -/
  par : Params
  /-- the model's own: which stream of free values this instance draws from -/
  stream : Nat
  /-- the model's own: the next draw -/
  draws : Nat
  /-- the model's own: the events the outside world has issued and the block has not yet taken, oldest first (R65) -/
  port : List Event
  /-- the model's own: the values the port has handed back, oldest first (R265) -/
  trace : List ReadValue
  deriving DecidableEq, Repr

/-- Why the machine stops with a fault. The spec gives the block no stuck state; the one fault guards what R218 says
never happens. -/
inductive Fault where
  /-- Raised by a command that would read or write a byte outside a buffer. R218: no command ever does. No state with
  admitted parameters (R4) reaches it. Safe: it stops where the spec gives no effect. Log entry 7. -/
  | blockAccessOutsideBuffer (sp : Space)
  deriving DecidableEq, Repr

/-- Why the model has no step. -/
inductive Refusal where
  /-- Raised by a rejected arm of `exec`: an instruction without a meaning. No arm is rejected. Safe. -/
  | notModelled (mnemonic : String)
  /-- Raised by the port for a buffer operation at or beyond the buffer's size, which is not admitted: "A model refuses
  such an operation." (R62). Safe. Log entry 9. -/
  | offsetNotAdmitted (sp : Space) (off : Nat)
  /-- Raised by a system of several instances (R232) when an event names an instance it does not have. Safe. Log entry 6. -/
  | noSuchInstance (k : Nat)
  deriving DecidableEq, Repr

/-- A buffer none of whose bytes has a definite value. -/
def Buffer.unspecified (draw : Nat) : Buffer := ⟨[], draw⟩

/-- The state after a reset (R52, R245): every register 0, every byte of the buffers unspecified by a new draw, with the
model's own fields given. -/
def State.afterReset (par : Params) (stream draw : Nat) (port : List Event) (trace : List ReadValue) : State where
  status := 0#8
  einfo := 0#32
  inPos := 0#32
  inLimit := 0#32
  outCap := 0#32
  outLen := 0#32
  hashLen := 0#32
  bin := 0#31
  toff := 0#4
  code := 0#32
  cfgDigitsIn := 0#32
  cfgOffsetIn := 0#32
  cfgChecksumIn := 0#1
  cfg := 0#32
  inp := Buffer.unspecified draw
  out := Buffer.unspecified draw
  hash := Buffer.unspecified draw
  par := par
  stream := stream
  draws := draw + 1
  port := port
  trace := trace

/-- The machine right after reset (R245), no event pending and nothing read yet. The parameters are log entry 1's choice,
the stream and the first draw log entry 2's. -/
def State.reset : State := State.afterReset Config.resetParams 0 0 [] []

end Sys2Proof.Machine
end

