-- ==== Sys2Proof/Machine/Flags.lean ====
section
/-! DEFINITION. STATUS: the error codes, the error kinds and the word they are packed into (10_state.md rule R23,
60_exceptions.md rules R215 to R217). These are the block's only flags. -/

namespace Sys2Proof.Machine

/-- The error codes (R215). -/
inductive ErrCode where
  | ok | illcmd | range | alloc | size | illchar | endunit | lastunit | cfgrange | nocfg | hashrange
  deriving DecidableEq, Repr

/-- The error kinds (R216). `algorithm` and `key` are reserved for what happens outside the block; it never reports
them. -/
inductive ErrKind where
  | none | config | algorithm | key | malformed | resource | usage
  deriving DecidableEq, Repr

/-- An error as `raise E_X(info)` names it (R10): its code, and what goes to EINFO (R217). -/
structure Err where
  code : ErrCode
  info : Word
  deriving DecidableEq, Repr

/-- STATUS.ECODE (R215). -/
def ErrCode.toBits : ErrCode → BitVec 4
  | .ok => 0#4
  | .illcmd => 1#4
  | .range => 2#4
  | .alloc => 3#4
  | .size => 4#4
  | .illchar => 5#4
  | .endunit => 6#4
  | .lastunit => 7#4
  | .cfgrange => 8#4
  | .nocfg => 9#4
  | .hashrange => 10#4

/-- STATUS.EKIND (R216). -/
def ErrKind.toBits : ErrKind → BitVec 3
  | .none => 0#3
  | .config => 1#3
  | .algorithm => 2#3
  | .key => 3#3
  | .malformed => 4#3
  | .resource => 5#3
  | .usage => 6#3

/-- Whether a command is a B32DEC. -/
def isDecode : Instr → Bool
  | .b32decF _ => true
  | .b32decI _ => true
  | .b32decC _ => true
  | .b32encF _ => false
  | .b32encI _ => false
  | .b32encC _ => false
  | .htrunc => false
  | .hfmt => false
  | .hcode => false
  | .cfgbuild => false

/-- The kind of an error: a function of the code and, for `E_SIZE`, of the command (R216; 90_conflicts.md C5). -/
def kindOf (cmd : Instr) : ErrCode → ErrKind
  | .ok => .none
  | .cfgrange => .config
  | .illchar => .malformed
  | .endunit => .malformed
  | .lastunit => .malformed
  | .size => if isDecode cmd then .malformed else .resource
  | .alloc => .resource
  | .illcmd => .usage
  | .range => .usage
  | .nocfg => .usage
  | .hashrange => .usage

/-- STATUS with DONE = 1: bit 7 DONE, bits 6:4 EKIND, bits 3:0 ECODE (R23). -/
def statusWord (k : ErrKind) (c : ErrCode) : BitVec 8 := 1#1 ++ k.toBits ++ c.toBits

/-- STATUS after a command that succeeded: DONE = 1, EKIND = 0, ECODE = `E_OK` (R23). -/
def okStatus : BitVec 8 := statusWord .none .ok

/-- STATUS after an illegal command word: EKIND = `K_USAGE`, ECODE = `E_ILLCMD` (R219). -/
def illegalStatus : BitVec 8 := statusWord .usage .illcmd

/-- STATUS after a command failed (R221). -/
def errStatus (cmd : Instr) (c : ErrCode) : BitVec 8 := statusWord (kindOf cmd c) c

/-- ECODE, bits 3:0 of STATUS (R23). -/
def statusCode (st : BitVec 8) : BitVec 4 := st.extractLsb' 0 4

/-- EKIND, bits 6:4 of STATUS (R23). -/
def statusKind (st : BitVec 8) : BitVec 3 := st.extractLsb' 4 3

/-- DONE, bit 7 of STATUS (R23). -/
def statusDone (st : BitVec 8) : Bool := st.getLsbD 7

end Sys2Proof.Machine
end

