-- ==== Sys2Proof/Machine/Operands.lean ====
section
/-! DEFINITION. The operands of the commands (30_encoding.md rule R87): the fields of CFG, the staged configuration, the
input range; and the constant tables the commands look up (10_state.md rules R43 to R48). -/

namespace Sys2Proof.Machine

/-- `ALPHA[v]`, index to symbol byte, in the closed forms of R43 and R44. -/
def alpha : Variant → BitVec 5 → Byte
  | .std, k => if k.toNat ≤ 25 then BitVec.ofNat 8 (0x41 + k.toNat) else BitVec.ofNat 8 (0x32 + (k.toNat - 26))
  | .hex, k => if k.toNat ≤ 9 then BitVec.ofNat 8 (0x30 + k.toNat) else BitVec.ofNat 8 (0x41 + (k.toNat - 10))

/-- `PAD`, the byte of `=` (R45). -/
def padByte : Byte := 0x3D#8

/-- What the inverse table answers for a byte (R46). -/
inductive SymClass where
  /-- `Sym(k)` -/
  | sym (k : BitVec 5)
  /-- `PADMARK` -/
  | pad
  /-- `ILL` -/
  | ill
  deriving DecidableEq, Repr

/-- `INV[v][b]` (R46): the pad, the index whose symbol is `b`, or illegal. The ranges are those of R43 and R44. -/
def inv : Variant → Byte → SymClass
  | .std, b =>
    if b = padByte then .pad
    else if 0x41 ≤ b.toNat ∧ b.toNat ≤ 0x5A then .sym (BitVec.ofNat 5 (b.toNat - 0x41))
    else if 0x32 ≤ b.toNat ∧ b.toNat ≤ 0x37 then .sym (BitVec.ofNat 5 (b.toNat - 0x32 + 26))
    else .ill
  | .hex, b =>
    if b = padByte then .pad
    else if 0x30 ≤ b.toNat ∧ b.toNat ≤ 0x39 then .sym (BitVec.ofNat 5 (b.toNat - 0x30))
    else if 0x41 ≤ b.toNat ∧ b.toNat ≤ 0x56 then .sym (BitVec.ofNat 5 (b.toNat - 0x41 + 10))
    else .ill

/-- The index a symbol byte stands for; 0 for a byte that is no symbol, which the decoder never asks about (R143). -/
def symIndex (v : Variant) (b : Byte) : BitVec 5 :=
  match inv v b with
  | .sym k => k
  | .pad => 0#5
  | .ill => 0#5

/-- `DOUBLE_DIGITS`, the table {0,2,4,6,8,1,3,5,7,9} as printed (R47). -/
def doubleDigits (d : Nat) : Nat := [0, 2, 4, 6, 8, 1, 3, 5, 7, 9].getD d 0

/-- `POW10[n]` (R48). -/
def pow10 (n : Nat) : Nat := 10 ^ n

/-- CFG.VALID, bit 31 (R37). -/
def cfgValid (c : Word) : Bool := c.getLsbD 31

/-- CFG.DIGITS, bits 3:0, unsigned (R37). -/
def cfgDigits (c : Word) : Nat := (c.extractLsb' 0 4).toNat

/-- CFG.CHECKSUM, bit 4 (R37). -/
def cfgChecksum (c : Word) : Bool := c.getLsbD 4

/-- CFG.OFFSET, bits 9:5 read as a 5-bit two's-complement number, `sext_5` (R37, R87). -/
def cfgOffset (c : Word) : Int := (c.extractLsb' 5 5).toInt

/-- The packing of CFG by a successful build (R88). -/
def packCfg (digits offset : Int) (checksum : BitVec 1) : Word :=
  1#1 ++ 0#21 ++ BitVec.ofInt 5 offset ++ checksum ++ BitVec.ofInt 4 digits

/-- `D = sext_32(r[CFG_DIGITS_IN])` (R87). -/
def stagedDigits (s : State) : Int := s.cfgDigitsIn.toInt

/-- `O = sext_32(r[CFG_OFFSET_IN])` (R87). -/
def stagedOffset (s : State) : Int := s.cfgOffsetIn.toInt

/-- The length of the input range, `r[IN_LIMIT] - r[IN_POS]` (R26). -/
def rangeLen (s : State) : Nat := s.inLimit.toNat - s.inPos.toNat

end Sys2Proof.Machine
end

