-- ==== Sys2Proof/Machine/Ops.lean ====
section
/-! DEFINITION. The named operations over buffers and registers (R10, R21, R60), ending a command with success, and
ending it with an error, `raise` (60_exceptions.md rule R221), the one shared operation by which a command fails. There is
no return from an error (R223). -/

namespace Sys2Proof.Machine

/-- The definite byte at an offset, if there is one. -/
def Memory.read? : Memory → Nat → Option Byte
  | [], _ => none
  | (a, b) :: m, x => if a = x then some b else Memory.read? m x

/-- Gives one byte a definite value, keeping the offsets rising. -/
def Memory.write : Memory → Nat → Byte → Memory
  | [], x, c => [(x, c)]
  | (a, b) :: m, x, c =>
    if x < a then (x, c) :: (a, b) :: m
    else if x = a then (x, c) :: m
    else (a, b) :: Memory.write m x c

/-- Writes a list of bytes at rising offsets, the first at `x` (R10). -/
def Memory.writeList : Memory → Nat → List Byte → Memory
  | m, _, [] => m
  | m, x, b :: bs => Memory.writeList (Memory.write m x b) (x + 1) bs

/-- The canonical form: offsets strictly rising. An unlisted offset reads as no definite value, which no entry equals. -/
def Memory.wf : Memory → Bool
  | [] => true
  | [_] => true
  | (a, _) :: (b, c) :: m => decide (a < b) && Memory.wf ((b, c) :: m)

/-- Every listed offset lies below a bound. -/
def Memory.below (n : Nat) (m : Memory) : Bool := m.all fun c => decide (c.1 < n)

/-- The buffer of a space (R61). -/
def State.buf (s : State) : Space → Buffer
  | .inp => s.inp
  | .out => s.out
  | .hash => s.hash

/-- Replaces the buffer of a space. -/
def State.setBuf (s : State) (sp : Space) (b : Buffer) : State :=
  match sp with
  | .inp => { s with inp := b }
  | .out => { s with out := b }
  | .hash => { s with hash := b }

/-- The byte at an offset: the definite one, else the free value of the buffer's last draw (R73, log entry 2). -/
def State.byteAt (s : State) (sp : Space) (off : Nat) : Byte :=
  (Memory.read? (s.buf sp).mem off).getD (Config.freeByte s.stream (s.buf sp).draw sp off)

/-- The `n` bytes from an offset, lowest first. -/
def State.bytesAt (s : State) (sp : Space) (off n : Nat) : List Byte :=
  (List.range n).map fun i => s.byteAt sp (off + i)

/-- `MemRead(space, off, n)` (R10); no answer where the range leaves the buffer. -/
def State.memRead (s : State) (sp : Space) (off n : Nat) : Option (List Byte) :=
  if off + n ≤ s.par.size sp then some (s.bytesAt sp off n) else none

/-- `MemWrite(space, off, n, v)` (R10), `n` the length of `v`; no answer where the range leaves the buffer. -/
def State.memWrite (s : State) (sp : Space) (off : Nat) (v : List Byte) : Option State :=
  if off + v.length ≤ s.par.size sp then
    some (s.setBuf sp { s.buf sp with mem := Memory.writeList (s.buf sp).mem off v })
  else none

/-- The register an index names; 15 and above are reserved (R21, R39). -/
def regOf (idx : Word) : Option Reg :=
  match idx.toNat with
  | 0 => some .cmd
  | 1 => some .status
  | 2 => some .einfo
  | 3 => some .inPos
  | 4 => some .inLimit
  | 5 => some .outCap
  | 6 => some .outLen
  | 7 => some .hashLen
  | 8 => some .bin
  | 9 => some .toff
  | 10 => some .code
  | 11 => some .cfgDigitsIn
  | 12 => some .cfgOffsetIn
  | 13 => some .cfgChecksumIn
  | 14 => some .cfg
  | _ => none

/-- The index of a register (R21). -/
def regIdx : Reg → Word
  | .cmd => 0#32
  | .status => 1#32
  | .einfo => 2#32
  | .inPos => 3#32
  | .inLimit => 4#32
  | .outCap => 5#32
  | .outLen => 6#32
  | .hashLen => 7#32
  | .bin => 8#32
  | .toff => 9#32
  | .code => 10#32
  | .cfgDigitsIn => 11#32
  | .cfgOffsetIn => 12#32
  | .cfgChecksumIn => 13#32
  | .cfg => 14#32

/-- The host's access to a register (R21). -/
def regAccess : Reg → Access
  | .cmd => .wo
  | .status => .ro
  | .einfo => .ro
  | .inPos => .rw
  | .inLimit => .rw
  | .outCap => .rw
  | .outLen => .ro
  | .hashLen => .rw
  | .bin => .rw
  | .toff => .ro
  | .code => .ro
  | .cfgDigitsIn => .rw
  | .cfgOffsetIn => .rw
  | .cfgChecksumIn => .rw
  | .cfg => .ro

/-- What a register reads as, zero-extended to 32 bits; CMD reads 0 (R21, R60). -/
def State.reg (s : State) : Reg → Word
  | .cmd => 0#32
  | .status => s.status.setWidth 32
  | .einfo => s.einfo
  | .inPos => s.inPos
  | .inLimit => s.inLimit
  | .outCap => s.outCap
  | .outLen => s.outLen
  | .hashLen => s.hashLen
  | .bin => s.bin.setWidth 32
  | .toff => s.toff.setWidth 32
  | .code => s.code
  | .cfgDigitsIn => s.cfgDigitsIn
  | .cfgOffsetIn => s.cfgOffsetIn
  | .cfgChecksumIn => s.cfgChecksumIn.setWidth 32
  | .cfg => s.cfg

/-- A host write to a register that holds state: a read-write register takes the bits it has of `w`; a read-only one
ignores the write, and CMD stores nothing (R21, R60). -/
def State.setReg (s : State) (w : Word) : Reg → State
  | .cmd => s
  | .status => s
  | .einfo => s
  | .inPos => { s with inPos := w }
  | .inLimit => { s with inLimit := w }
  | .outCap => { s with outCap := w }
  | .outLen => s
  | .hashLen => { s with hashLen := w }
  | .bin => { s with bin := w.setWidth 31 }
  | .toff => s
  | .code => s
  | .cfgDigitsIn => { s with cfgDigitsIn := w }
  | .cfgOffsetIn => { s with cfgOffsetIn := w }
  | .cfgChecksumIn => { s with cfgChecksumIn := w.setWidth 1 }
  | .cfg => s

/-- The value `RegRead(idx)` gives; 0 for a reserved index (R39, R60). -/
def State.regRead (s : State) (idx : Word) : Word :=
  match regOf idx with
  | some r => s.reg r
  | none => 0#32

/-- The state part of `RegWrite(idx, w)`; nothing for a reserved index (R39, R60). Executing the command a write to CMD
carries is the port's (Machine/Port.lean). -/
def State.regWrite (s : State) (idx w : Word) : State :=
  match regOf idx with
  | some r => s.setReg w r
  | none => s

/-- The commands that write OUT on success: B32ENC, B32DEC, HFMT, HCODE (R51, R221). -/
def writesOut : Instr → Bool
  | .b32encF _ => true
  | .b32encI _ => true
  | .b32encC _ => true
  | .b32decF _ => true
  | .b32decI _ => true
  | .b32decC _ => true
  | .htrunc => false
  | .hfmt => true
  | .hcode => true
  | .cfgbuild => false

/-- OUT_LEN is 0 and all of OUT is unspecified by a new draw (R221). -/
def State.loseOut (s : State) : State :=
  { s with outLen := 0#32, out := Buffer.unspecified s.draws, draws := s.draws + 1 }

/-- STATUS and EINFO at the end of a command (R23, R24). -/
def State.report (s : State) (st : BitVec 8) (info : Word) : State := { s with status := st, einfo := info }

/-- A command that succeeded: STATUS with `E_OK`, EINFO 0 (R23, R24). -/
def State.succeed (s : State) : State := s.report okStatus 0#32

/-- `raise E_X(info)` in a command (R221): `s` is the state before the command, so nothing it computed is committed. -/
def raise (cmd : Instr) (e : Err) (s : State) : State :=
  let t := s.report (errStatus cmd e.code) e.info
  if writesOut cmd then t.loseOut else t

/-- An illegal command word: `E_ILLCMD`, and nothing else changes (R84, R219). -/
def raiseIllegal (s : State) : State := s.report illegalStatus 0#32

/-- An assertion of the instance's reset input (R245): registers 0, buffers unspecified; the parameters and the host's
side of the port stay (log entry 5). -/
def applyReset (s : State) : State := State.afterReset s.par s.stream s.draws s.port s.trace

/-- Delivers the result of a command into OUT from offset 0 and its length into OUT_LEN (R28, R71). -/
def State.deliver (s : State) (bytes : List Byte) : Option State :=
  (s.memWrite .out 0 bytes).map fun t => { t with outLen := BitVec.ofNat 32 bytes.length }

end Sys2Proof.Machine
end

