-- ==== Sys2Proof/Machine/ConfigBuild.lean ====
section
/-! DEFINITION. CFGBUILD: validate the staged configuration and commit it (43_config_and_control.md). -/

namespace Sys2Proof.Machine

/-- The range check of the staged configuration that fails first: digits, then offset (R190, R191). -/
def stagedError (s : State) : Option Err :=
  if stagedDigits s < 6 ∨ 8 < stagedDigits s then some ⟨.cfgrange, 1#32⟩
  else if stagedOffset s < -1 ∨ 15 < stagedOffset s then some ⟨.cfgrange, 2#32⟩
  else none

/-- CFGBUILD (R190). -/
def execCfgbuild (s : State) : Host.Outcome State Fault Refusal :=
  match stagedError s with
  | some e => .next (raise .cfgbuild e s)
  | none =>
    .next ({ s with cfg := packCfg (stagedDigits s) (stagedOffset s) s.cfgChecksumIn } : State).succeed

end Sys2Proof.Machine
end

