-- ==== Sys2Proof/Machine/Base32.lean ====
section
/-! DEFINITION. What the Base32 commands share: the checks of the operand ranges and capacities (60_exceptions.md rule
R218, R222) and committing a result (R115 step 4, R145 step 4). -/

namespace Sys2Proof.Machine

/-- The first range check of a Base32 command that fails (R218, R115 step 1, R145 step 1). -/
def rangeError (sh : Shape) (s : State) : Option Err :=
  if s.inLimit.toNat < s.inPos.toNat then some ⟨.range, 1#32⟩
  else if s.par.inSize < s.inLimit.toNat then some ⟨.range, 2#32⟩
  else if sh = .I ∧ s.par.outSize < s.outCap.toNat then some ⟨.range, 3#32⟩
  else none

/-- A result length that 32 bits cannot represent, the overflow guard (R116, log entry 13). -/
def lengthError (need : Nat) : Option Err := if lenMax < need then some ⟨.alloc, 0#32⟩ else none

/-- A result that does not fit: the physical OUT buffer in the shapes F and C, OUT_CAP in the shape I (R115 step 3,
R145 step 3). -/
def capacityError (sh : Shape) (need : Nat) (s : State) : Option Err :=
  match sh with
  | .F => if s.par.outSize < need then some ⟨.alloc, 0#32⟩ else none
  | .I => if s.outCap.toNat < need then some ⟨.size, 0#32⟩ else none
  | .C => if s.par.outSize < need then some ⟨.alloc, 0#32⟩ else none

/-- The cursor form moves IN_POS to IN_LIMIT; the other shapes leave it (R25). -/
def advance (sh : Shape) (s : State) : State :=
  match sh with
  | .F => s
  | .I => s
  | .C => { s with inPos := s.inLimit }

/-- The committing step of a Base32 command that passed its checks (R115 step 4, R145 step 4). -/
def commitBytes (sh : Shape) (bytes : List Byte) (s : State) : Host.Outcome State Fault Refusal :=
  match s.deliver bytes with
  | some t => .next (advance sh t).succeed
  | none => .fault (.blockAccessOutsideBuffer .out)

end Sys2Proof.Machine
end

