-- ==== Sys2Proof/Machine/Decode32.lean ====
section
/-! DEFINITION. Base32 decode: the function B32DecodeCore and the commands B32DEC.F, B32DEC.I, B32DEC.C
(41_base32_decode.md; 90_conflicts.md C1 to C4). -/

namespace Sys2Proof.Machine

/-- What the decoder answers (R143): the bytes, or an error code and the index it concerns (0 but for `E_ILLCHAR`). -/
inductive Decoded where
  | ok (bytes : List Byte)
  | err (code : ErrCode) (i : Nat)
  deriving DecidableEq, Repr

/-- The bytes before the first pad, or all of them (R130: `p` is its length). -/
def beforePad (T : List Byte) : List Byte := T.takeWhile fun b => b != padByte

/-- The index of the first illegal byte (R134). -/
def firstIllegal (v : Variant) (P : List Byte) : Option Nat := P.findIdx? fun b => inv v b == SymClass.ill

/-- `TailBytes(s)`, the whole bytes a partial group of `s` symbols carries (R131). -/
def tailBytes : Nat → Nat
  | 2 => 1
  | 4 => 2
  | 5 => 3
  | 7 => 4
  | _ => 0

/-- The 40-bit value of a group of symbols, the first most significant, missing ones taken as zero (R140, R141). -/
def symWord (K : List (BitVec 5)) : BitVec 40 :=
  K.getD 0 0#5 ++ K.getD 1 0#5 ++ K.getD 2 0#5 ++ K.getD 3 0#5 ++ K.getD 4 0#5 ++ K.getD 5 0#5 ++ K.getD 6 0#5 ++
    K.getD 7 0#5

/-- `W[39-8j : 32-8j]`, the j-th byte from the top (R140). -/
def byteSlice (W : BitVec 40) (j : Nat) : Byte := W.extractLsb' (32 - 8 * j) 8

/-- The first `n` bytes of a group (R140, R141). -/
def groupBytes (W : BitVec 40) (n : Nat) : List Byte := (List.range n).map fun j => byteSlice W j

/-- The first `g` groups of eight symbols, then the tail (R143). -/
def decodeGroups : Nat → List (BitVec 5) → List Byte
  | 0, K => groupBytes (symWord K) (tailBytes K.length)
  | g + 1, K => groupBytes (symWord K) 5 ++ decodeGroups g (K.drop 8)

/-- The structural error of a text of `n` bytes whose first pad (or end) is at `p`, if there is one; `rest` is the text
from `p` on (R135, R136, R138, R139). -/
def structureError (n p : Nat) (rest : List Byte) : Option ErrCode :=
  if p < n then
    if p % 8 ≠ 2 ∧ p % 8 ≠ 4 ∧ p % 8 ≠ 5 ∧ p % 8 ≠ 7 then some .endunit
    else if n ≠ p + (8 - p % 8) then some .endunit
    else if rest.any fun b => b != padByte then some .endunit
    else none
  else if p % 8 = 1 then some .lastunit
  else if p % 8 = 3 ∨ p % 8 = 6 then some .endunit
  else none

/-- `B32DecodeCore(v, T)` (R143). -/
def decodeCore (v : Variant) (T : List Byte) : Decoded :=
  match firstIllegal v (beforePad T) with
  | some i => .err .illchar i
  | none =>
    match structureError T.length (beforePad T).length (T.drop (beforePad T).length) with
    | some c => .err c 0
    | none => .ok (decodeGroups ((beforePad T).length / 8) ((beforePad T).map (symIndex v)))

/-- The error a decode command raises for a text the decoder rejects: for `E_ILLCHAR`, EINFO is the absolute index in IN
(R145, R217). -/
def decodeErr (s : State) (c : ErrCode) (i : Nat) : Err :=
  ⟨c, if c = .illchar then BitVec.ofNat 32 (s.inPos.toNat + i) else 0#32⟩

/-- `DecodeProc(v, shape)` (R145). -/
def decodeProc (cmd : Instr) (v : Variant) (sh : Shape) (s : State) : Host.Outcome State Fault Refusal :=
  match rangeError sh s with
  | some e => .next (raise cmd e s)
  | none =>
    match s.memRead .inp s.inPos.toNat (rangeLen s) with
    | none => .fault (.blockAccessOutsideBuffer .inp)
    | some T =>
      match decodeCore v T with
      | .err c i => .next (raise cmd (decodeErr s c i) s)
      | .ok bytes =>
        match capacityError sh bytes.length s with
        | some e => .next (raise cmd e s)
        | none => commitBytes sh bytes s

/-- B32DEC.F (R146). -/
def execB32decF (v : Variant) (s : State) : Host.Outcome State Fault Refusal := decodeProc (.b32decF v) v .F s

/-- B32DEC.I (R147). -/
def execB32decI (v : Variant) (s : State) : Host.Outcome State Fault Refusal := decodeProc (.b32decI v) v .I s

/-- B32DEC.C (R148). -/
def execB32decC (v : Variant) (s : State) : Host.Outcome State Fault Refusal := decodeProc (.b32decC v) v .C s

end Sys2Proof.Machine
end

