-- ==== Sys2Proof/Machine/Encode32.lean ====
section
/-! DEFINITION. Base32 encode: the function B32EncodeCore and the commands B32ENC.F, B32ENC.I, B32ENC.C
(40_base32_encode.md). -/

namespace Sys2Proof.Machine

/-- `EncLen(N) = 8 * ceil(N/5)` (R110). -/
def encLen (n : Nat) : Nat := 8 * ((n + 4) / 5)

/-- `TailSyms(r)`, the symbols a tail of `r` bytes produces (R112). -/
def tailSyms : Nat → Nat
  | 1 => 2
  | 2 => 4
  | 3 => 5
  | 4 => 7
  | _ => 0

/-- The 40-bit value of a group, its first byte most significant, missing bytes taken as zero (R111, R113). -/
def byteWord (B : List Byte) : BitVec 40 :=
  B.getD 0 0#8 ++ B.getD 1 0#8 ++ B.getD 2 0#8 ++ B.getD 3 0#8 ++ B.getD 4 0#8

/-- `W[39-5k : 35-5k]`, the k-th 5-bit slice from the top (R111). -/
def symSlice (W : BitVec 40) (k : Nat) : BitVec 5 := W.extractLsb' (35 - 5 * k) 5

/-- The first `n` symbols of a group (R111, R113). -/
def groupSyms (v : Variant) (W : BitVec 40) (n : Nat) : List Byte :=
  (List.range n).map fun k => alpha v (symSlice W k)

/-- The first `g` groups of five bytes (R114). -/
def encodeGroups (v : Variant) : Nat → List Byte → List Byte
  | 0, _ => []
  | g + 1, S => groupSyms v (byteWord S) 8 ++ encodeGroups v g (S.drop 5)

/-- The tail: `TailSyms(r)` symbols and then pads up to eight bytes; nothing when no byte is left over (R112, R113). -/
def encodeTail (v : Variant) (S : List Byte) : List Byte :=
  if S.length = 0 then []
  else groupSyms v (byteWord S) (tailSyms S.length) ++ List.replicate (8 - tailSyms S.length) padByte

/-- `B32EncodeCore(v, S)` (R114). -/
def encodeCore (v : Variant) (S : List Byte) : List Byte :=
  encodeGroups v (S.length / 5) S ++ encodeTail v (S.drop (5 * (S.length / 5)))

/-- The first check of an encode command that fails, in the order of R115 (R222). -/
def encodeError (sh : Shape) (s : State) : Option Err :=
  (rangeError sh s).or ((lengthError (encLen (rangeLen s))).or (capacityError sh (encLen (rangeLen s)) s))

/-- `EncodeProc(v, shape)` (R115). -/
def encodeProc (cmd : Instr) (v : Variant) (sh : Shape) (s : State) : Host.Outcome State Fault Refusal :=
  match encodeError sh s with
  | some e => .next (raise cmd e s)
  | none =>
    match s.memRead .inp s.inPos.toNat (rangeLen s) with
    | some S => commitBytes sh (encodeCore v S) s
    | none => .fault (.blockAccessOutsideBuffer .inp)

/-- B32ENC.F (R117). -/
def execB32encF (v : Variant) (s : State) : Host.Outcome State Fault Refusal := encodeProc (.b32encF v) v .F s

/-- B32ENC.I (R118). -/
def execB32encI (v : Variant) (s : State) : Host.Outcome State Fault Refusal := encodeProc (.b32encI v) v .I s

/-- B32ENC.C (R119). -/
def execB32encC (v : Variant) (s : State) : Host.Outcome State Fault Refusal := encodeProc (.b32encC v) v .C s

end Sys2Proof.Machine
end

