-- ==== Sys2Proof/Machine/Hotp.lean ====
section
/-! DEFINITION. HOTP truncation and formatting: the commands HTRUNC, HFMT, HCODE (42_hotp_truncate_format.md). -/

namespace Sys2Proof.Machine

/-- `SelectOffset(off_cfg, H)` (R163; 90_conflicts.md C6): the configured offset when it lies in `[0, L-4)`, else the low
nibble of the last byte. -/
def selectOffset (off : Int) (H : List Byte) : Nat :=
  if 0 ≤ off ∧ off < (H.length : Int) - 4 then off.toNat
  else (H.getD (H.length - 1) 0#8 &&& 0x0F#8).toNat

/-- `Extract31(H, off)`, with OTP's masks, shifts and ors (R166); the result has 31 bits. -/
def extract31 (H : List Byte) (off : Nat) : BitVec 31 :=
  ((((H.getD off 0#8 &&& 0x7F#8).setWidth 32 <<< 24) ||| ((H.getD (off + 1) 0#8 &&& 0xFF#8).setWidth 32 <<< 16) |||
    ((H.getD (off + 2) 0#8 &&& 0xFF#8).setWidth 32 <<< 8) ||| (H.getD (off + 3) 0#8 &&& 0xFF#8).setWidth 32) :
    BitVec 32).setWidth 31

/-- The loop of the checksum: `n` digits of `num` from the right, doubling alternately (R169). -/
def checksumTotal : Nat → Nat → Bool → Nat → Nat
  | 0, _, _, total => total
  | n + 1, num, dbl, total =>
    checksumTotal n (num / 10) (!dbl) (total + (if dbl then doubleDigits (num % 10) else num % 10))

/-- `Checksum(code, digits)` (R169). -/
def checksum (code digits : Nat) : Nat := (10 - checksumTotal digits code true 0 % 10) % 10

/-- The value that is rendered: the code, with the checksum digit appended when it is enabled (R171). -/
def renderValue (code digits : Nat) (ck : Bool) : Nat := if ck then code * 10 + checksum code digits else code

/-- The width of the decimal string (R171). -/
def renderWidth (digits : Nat) (ck : Bool) : Nat := if ck then digits + 1 else digits

/-- The decimal digits of `value` in `w` characters, most significant first, zero padded (R172, R90). -/
def renderDecimal (value w : Nat) : List Byte :=
  (List.range w).map fun i => BitVec.ofNat 8 (0x30 + value / 10 ^ (w - 1 - i) % 10)

/-- `HotpFormat(binary, digits, ck)`: the code and the string (R173). -/
def hotpFormat (binary digits : Nat) (ck : Bool) : Nat × List Byte :=
  let code := binary % pow10 digits
  (code, renderDecimal (renderValue code digits ck) (renderWidth digits ck))

/-- The checks and the computation HTRUNC and HCODE share (R167, R177): with the offset and the 31-bit value, `k` goes
on. -/
def truncate (cmd : Instr) (s : State) (k : Nat → BitVec 31 → Host.Outcome State Fault Refusal) :
    Host.Outcome State Fault Refusal :=
  if cfgValid s.cfg = false then .next (raise cmd ⟨.nocfg, 0#32⟩ s)
  else if s.hashLen.toNat < 1 ∨ hashMax < s.hashLen.toNat then .next (raise cmd ⟨.range, 4#32⟩ s)
  else
    match s.memRead .hash 0 s.hashLen.toNat with
    | none => .fault (.blockAccessOutsideBuffer .hash)
    | some H =>
      let off := selectOffset (cfgOffset s.cfg) H
      if s.hashLen.toNat < off + 4 then .next (raise cmd ⟨.hashrange, BitVec.ofNat 32 off⟩ s)
      else k off (extract31 H off)

/-- The state with the truncation's results: BIN and TOFF (R167). -/
def State.setTruncation (s : State) (off : Nat) (bin : BitVec 31) : State :=
  { s with bin := bin, toff := BitVec.ofNat 4 off }

/-- Formats the BIN of `s` under its CFG and commits (R176). -/
def formatBin (s : State) : Host.Outcome State Fault Refusal :=
  let r := hotpFormat s.bin.toNat (cfgDigits s.cfg) (cfgChecksum s.cfg)
  match s.deliver r.2 with
  | some t => .next ({ t with code := BitVec.ofNat 32 r.1 } : State).succeed
  | none => .fault (.blockAccessOutsideBuffer .out)

/-- HTRUNC (R167). -/
def execHtrunc (s : State) : Host.Outcome State Fault Refusal :=
  truncate .htrunc s fun off bin => .next (s.setTruncation off bin).succeed

/-- HFMT (R176). -/
def execHfmt (s : State) : Host.Outcome State Fault Refusal :=
  if cfgValid s.cfg = false then .next (raise .hfmt ⟨.nocfg, 0#32⟩ s) else formatBin s

/-- HCODE: truncation, then formatting of the value just computed, committed together (R177). -/
def execHcode (s : State) : Host.Outcome State Fault Refusal :=
  truncate .hcode s fun off bin => formatBin (s.setTruncation off bin)

end Sys2Proof.Machine
end

