-- ==== Sys2Proof/Machine/Dispatch.lean ====
section
/-! DEFINITION. One arm per command (30_encoding.md rule R83). -/

namespace Sys2Proof.Machine

def exec (i : Instr) (s : State) : Host.Outcome State Fault Refusal :=
  match i with
  -- Base32 encode, 40_base32_encode.md
  | .b32encF v => Sys2Proof.Machine.execB32encF v s
  | .b32encI v => Sys2Proof.Machine.execB32encI v s
  | .b32encC v => Sys2Proof.Machine.execB32encC v s
  -- Base32 decode, 41_base32_decode.md
  | .b32decF v => Sys2Proof.Machine.execB32decF v s
  | .b32decI v => Sys2Proof.Machine.execB32decI v s
  | .b32decC v => Sys2Proof.Machine.execB32decC v s
  -- HOTP, 42_hotp_truncate_format.md
  | .htrunc => Sys2Proof.Machine.execHtrunc s
  | .hfmt => Sys2Proof.Machine.execHfmt s
  | .hcode => Sys2Proof.Machine.execHcode s
  -- configuration, 43_config_and_control.md
  | .cfgbuild => Sys2Proof.Machine.execCfgbuild s

end Sys2Proof.Machine
end

