-- ==== Sys2Proof/Machine/Port.lean ====
section
/-! DEFINITION. The port (20_memory.md rules R60 to R65) and the events an instance takes: the four port operations and
the reset input (R245). -/

namespace Sys2Proof.Machine

/-- A write of the word `w` to CMD: the command it encodes executes; an illegal word reports `E_ILLCMD` (R22, R64, R84). -/
def runCommandWord (w : Word) (s : State) : Host.Outcome State Fault Refusal :=
  match decodeCmd w with
  | .ok i => exec i s
  | .error _ => .next (raiseIllegal s)

/-- `RegWrite(idx, w)` (R60). -/
def portRegWrite (idx w : Word) (s : State) : Host.Outcome State Fault Refusal :=
  if idx = 0#32 then runCommandWord w s else .next (s.regWrite idx w)

/-- `RegRead(idx)`: the value goes to the host; no side effect on the block (R60). -/
def portRegRead (idx : Word) (s : State) : Host.Outcome State Fault Refusal :=
  .next { s with trace := s.trace ++ [.reg (s.regRead idx)] }

/-- `BufWrite(space, off, b)` inside the buffer: IN and HASH take the byte, OUT ignores it (R41, R60). -/
def State.bufWrite (s : State) (sp : Space) (off : Nat) (b : Byte) : State :=
  match sp with
  | .inp => { s with inp := { s.inp with mem := Memory.write s.inp.mem off b } }
  | .out => s
  | .hash => { s with hash := { s.hash with mem := Memory.write s.hash.mem off b } }

/-- `BufWrite(space, off, b)`; refused at or beyond the buffer's size (R60, R62). -/
def portBufWrite (sp : Space) (off : Nat) (b : Byte) (s : State) : Host.Outcome State Fault Refusal :=
  if off < s.par.size sp then .next (s.bufWrite sp off b) else .refused (.offsetNotAdmitted sp off)

/-- `BufRead(space, off)`; refused at or beyond the buffer's size (R60, R62). -/
def portBufRead (sp : Space) (off : Nat) (s : State) : Host.Outcome State Fault Refusal :=
  if off < s.par.size sp then .next { s with trace := s.trace ++ [.byte (s.byteAt sp off)] }
  else .refused (.offsetNotAdmitted sp off)

/-- One port operation (R60). -/
def portOp (o : PortOp) (s : State) : Host.Outcome State Fault Refusal :=
  match o with
  | .regWrite idx w => portRegWrite idx w s
  | .regRead idx => portRegRead idx s
  | .bufWrite sp off b => portBufWrite sp off b s
  | .bufRead sp off => portBufRead sp off s

/-- One event: a port operation, or a reset (R60, R245). -/
def takeEvent (e : Event) (s : State) : Host.Outcome State Fault Refusal :=
  match e with
  | .op o => portOp o s
  | .reset => .next (applyReset s)

/-- The next event is taken off the front and takes effect: one at a time, in the order issued (R65). With nothing
issued the block holds its state (R234, R265). -/
def takeNext (s : State) : Host.Outcome State Fault Refusal :=
  match s.port with
  | [] => .next s
  | e :: rest => takeEvent e { s with port := rest }

/-- The event that delivers a command word: a write of it to CMD (R22, R80). -/
def commandEvent (w : Word) : Event := .op (.regWrite 0#32 w)

/-- Puts an event before all others the host has issued. -/
def State.issueFirst (s : State) (e : Event) : State := { s with port := e :: s.port }

end Sys2Proof.Machine
end

