-- ==== Sys2Proof/Machine/Step.lean ====
section
/-! DEFINITION. One step: one port operation, or one reset (70_reset_and_hazards.md rule R258: "one port operation is one
step"). The block fetches no instruction (R31, R67): a command word is the operand of the next write to CMD. -/

namespace Sys2Proof.Machine

/-- One step (R65, R258). -/
def step (s : State) : Host.Outcome State Fault Refusal := takeNext s

/-- The state whose next event is the write of the word `w` to CMD (log entry 4). -/
def State.withFetchWord (s : State) (nbits w : Nat) : State :=
  s.issueFirst (commandEvent (BitVec.ofNat 32 (w % 2 ^ nbits)))

end Sys2Proof.Machine
end

