-- ==== Sys2Proof/Machine/Instances.lean ====
section
/-! DEFINITION. Several instances of the block (`N_INST`, 00_scope.md rule R4): each has its own state and port and they
share nothing (20_memory.md rule R75, 60_exceptions.md rule R232). -/

namespace Sys2Proof.Machine

/-- A system is the list of its instances' states; `N_INST` is its length (R4). -/
abbrev System := List State

/-- The parameters of the instances, in their order (R4, R20). -/
def System.params (S : System) : List Params := S.map State.par

/-- The systems R4 admits: one instance or more, each with sizes in their bounds. -/
def System.admitted (S : System) : Bool := Params.systemAdmitted S.params

/-- The system right after reset, with the parameters as its argument: `N_INST` is how many `ps` has, and the instance at
place `k` has the sizes `ps` gives there (R4) and draws its free values from a stream of its own (log entry 2). -/
def System.reset (ps : List Params) : System := ps.mapIdx fun k par => State.afterReset par k 0 [] []

/-- One step of instance `k`; the others do not take part (R75). -/
def System.step (S : System) (k : Nat) : Host.Outcome System Fault Refusal :=
  match S[k]? with
  | none => .refused (.noSuchInstance k)
  | some s =>
    match Machine.step s with
    | .next t => .next (S.set k t)
    | .fault f => .fault f
    | .refused r => .refused r

end Sys2Proof.Machine
end

