-- ==== Sys2Proof/Machine/Script.lean ====
section
/-! DEFINITION. Host scripts (30_encoding.md rules R93 to R95, 70_reset_and_hazards.md rule R266): the written form of a
command and the port operations a script line stands for. -/

namespace Sys2Proof.Machine

/-- The variant word of a Base32 command (R93). -/
def variantText : Variant → String
  | .std => "std"
  | .hex => "hex"

/-- A command in the spec's written form: its mnemonic in lower case and, for the Base32 commands, the variant (R93). -/
def commandText : Instr → String
  | .b32encF v => "b32enc.f " ++ variantText v
  | .b32encI v => "b32enc.i " ++ variantText v
  | .b32encC v => "b32enc.c " ++ variantText v
  | .b32decF v => "b32dec.f " ++ variantText v
  | .b32decI v => "b32dec.i " ++ variantText v
  | .b32decC v => "b32dec.c " ++ variantText v
  | .htrunc => "htrunc"
  | .hfmt => "hfmt"
  | .hcode => "hcode"
  | .cfgbuild => "cfgbuild"

/-- `wr REG, value`; a negative value means its two's-complement pattern (R94). -/
def lineWr (r : Reg) (value : Int) : PortOp := .regWrite (regIdx r) (BitVec.ofInt 32 value)

/-- `rd REG` (R94). -/
def lineRd (r : Reg) : PortOp := .regRead (regIdx r)

/-- `wb SPACE, off, byte` (R94). -/
def lineWb (sp : Space) (off : Nat) (b : Byte) : PortOp := .bufWrite sp off b

/-- `rb SPACE, off` (R94). -/
def lineRb (sp : Space) (off : Nat) : PortOp := .bufRead sp off

/-- `cmd <command>` (R94). -/
def lineCmd (i : Instr) : PortOp := .regWrite (regIdx .cmd) (encode i)

/-- `ld SPACE, off, hex:…` (R95). -/
def linesLd (sp : Space) : Nat → List Byte → List PortOp
  | _, [] => []
  | off, b :: bs => lineWb sp off b :: linesLd sp (off + 1) bs

/-- `input hex:…` (R95). -/
def linesInput (bytes : List Byte) : List PortOp :=
  linesLd .inp 0 bytes ++ [lineWr .inPos 0, lineWr .inLimit bytes.length]

/-- `hash hex:…` (R95). -/
def linesHash (bytes : List Byte) : List PortOp := linesLd .hash 0 bytes ++ [lineWr .hashLen bytes.length]

/-- `config D, O, C` (R95). -/
def linesConfig (digits offset ck : Int) : List PortOp :=
  [lineWr .cfgDigitsIn digits, lineWr .cfgOffsetIn offset, lineWr .cfgChecksumIn ck, lineCmd .cfgbuild]

/-- The bytes of a text, one per character, its ASCII code (R89, R95; 93_implementation_defined.md G1). -/
def asciiBytes (t : List Char) : List Byte := t.map fun c => BitVec.ofNat 8 c.toNat

/-- Loads a script: its operations are issued after those already issued, in order (R65, R266). -/
def State.load (s : State) (script : List PortOp) : State := { s with port := s.port ++ script.map .op }

end Sys2Proof.Machine
end

