-- ==== Sys2Proof/Safety.lean ====
section
/-! DEFINITION. What a sound state is (the invariants the spec states of the machine) and the parts of the state a frame
speaks of. -/

namespace Sys2Proof

open Sys2Proof.Machine

/-- The values CFG may hold: 0, or VALID = 1 with digits 6 to 8, offset -1 to 15 and bits 30:10 zero (R37, R38). -/
def cfgLegal (c : Word) : Bool :=
  decide (c = 0#32) ||
    (cfgValid c && decide (c.extractLsb' 10 21 = 0#21) && decide (6 ≤ cfgDigits c) && decide (cfgDigits c ≤ 8) &&
      decide (-1 ≤ cfgOffset c) && decide (cfgOffset c ≤ 15))

/-- The values STATUS may hold: 0 (no command since reset), or DONE = 1 with a code 0 to 10 and a kind R216 gives that
code (R23, R215, R216). -/
def statusLegal (st : BitVec 8) : Bool :=
  [0x00#8, 0x80#8, 0xE1#8, 0xE2#8, 0xD3#8, 0xC4#8, 0xD4#8, 0xC5#8, 0xC6#8, 0xC7#8, 0x98#8, 0xE9#8, 0xEA#8].contains st

/-- A buffer in canonical form: offsets rising, inside the buffer, and drawn earlier than the next draw. -/
def bufferSound (size draws : Nat) (b : Buffer) : Bool :=
  Memory.wf b.mem && Memory.below size b.mem && decide (b.draw < draws)

/-- The invariant of the machine: admitted parameters (R4), canonical buffers inside their sizes (R61), a legal CFG
(R38), a legal STATUS (R23), EINFO 0 on success (R24), results inside their ranges (R28, R33). -/
structure Sound (s : State) : Prop where
  params : s.par.admitted = true
  inpSound : bufferSound s.par.inSize s.draws s.inp = true
  outSound : bufferSound s.par.outSize s.draws s.out = true
  hashSound : bufferSound hashMax s.draws s.hash = true
  cfg : cfgLegal s.cfg = true
  status : statusLegal s.status = true
  einfo : statusCode s.status = 0#4 → s.einfo = 0#32
  outLen : s.outLen.toNat ≤ s.par.outSize
  code : s.code.toNat < 10 ^ 8

/-- The registers no command ever writes: IN_LIMIT, OUT_CAP, HASH_LEN and the staged configuration (R21), and the
buffers IN and HASH (R40, R42). -/
def SameOperands (s t : State) : Prop :=
  t.inLimit = s.inLimit ∧ t.outCap = s.outCap ∧ t.hashLen = s.hashLen ∧ t.cfgDigitsIn = s.cfgDigitsIn ∧
    t.cfgOffsetIn = s.cfgOffsetIn ∧ t.cfgChecksumIn = s.cfgChecksumIn ∧ t.inp = s.inp ∧ t.hash = s.hash

/-- The HOTP results: BIN, TOFF, CODE (R30, R32, R33). -/
def SameHotpResults (s t : State) : Prop := t.bin = s.bin ∧ t.toff = s.toff ∧ t.code = s.code

/-- What lies outside the block's registers and buffers: the parameters, the stream of free values, the host's pending
events and the values read so far. -/
def SameHostSide (s t : State) : Prop :=
  t.par = s.par ∧ t.stream = s.stream ∧ t.port = s.port ∧ t.trace = s.trace

/-- STATUS and EINFO report success (R23, R24). -/
def Succeeded (t : State) : Prop := t.status = 0x80#8 ∧ t.einfo = 0#32

/-- OUT from offset 0 holds `bytes`, OUT_LEN is their number, and every byte of OUT from there on reads as in `s`
(R28, R51, R71). -/
def Delivered (s t : State) (bytes : List Byte) : Prop :=
  t.outLen.toNat = bytes.length ∧ t.bytesAt .out 0 bytes.length = bytes ∧
    ∀ off, bytes.length ≤ off → t.byteAt .out off = s.byteAt .out off

/-- The input range lies inside IN (R218). -/
def RangeOk (s : State) : Prop := s.inPos.toNat ≤ s.inLimit.toNat ∧ s.inLimit.toNat ≤ s.par.inSize

/-- The input of a Base32 command, `MemRead(IN, r[IN_POS], r[IN_LIMIT] - r[IN_POS])` (R70). -/
def inputOf (s : State) : List Byte := s.bytesAt .inp s.inPos.toNat (s.inLimit.toNat - s.inPos.toNat)

/-- The hash input of HTRUNC and HCODE, `MemRead(HASH, 0, r[HASH_LEN])` (R72). -/
def hashOf (s : State) : List Byte := s.bytesAt .hash 0 s.hashLen.toNat

/-- The conditions under which HTRUNC and HCODE run: a configuration, a hash length of 1 to 64, and the selected window
inside the hash (R161, R162, R165). -/
def TruncationOk (s : State) : Prop :=
  cfgValid s.cfg = true ∧ 1 ≤ s.hashLen.toNat ∧ s.hashLen.toNat ≤ 64 ∧
    selectOffset (cfgOffset s.cfg) (hashOf s) + 4 ≤ s.hashLen.toNat

/-- The six Base32 commands. -/
def isBase32 : Instr → Bool
  | .b32encF _ => true
  | .b32encI _ => true
  | .b32encC _ => true
  | .b32decF _ => true
  | .b32decI _ => true
  | .b32decC _ => true
  | .htrunc => false
  | .hfmt => false
  | .hcode => false
  | .cfgbuild => false

/-- The cursor commands, which alone write IN_POS (R25). -/
def movesCursor : Instr → Bool
  | .b32encF _ => false
  | .b32encI _ => false
  | .b32encC _ => true
  | .b32decF _ => false
  | .b32decI _ => false
  | .b32decC _ => true
  | .htrunc => false
  | .hfmt => false
  | .hcode => false
  | .cfgbuild => false

/-- The ECODE values each command can produce (R225). -/
def possibleCodes : Instr → List (BitVec 4)
  | .b32encF _ => [0, 2, 3]
  | .b32encI _ => [0, 2, 3, 4]
  | .b32encC _ => [0, 2, 3]
  | .b32decF _ => [0, 2, 3, 5, 6, 7]
  | .b32decI _ => [0, 2, 4, 5, 6, 7]
  | .b32decC _ => [0, 2, 3, 5, 6, 7]
  | .htrunc => [0, 2, 9, 10]
  | .hfmt => [0, 9]
  | .hcode => [0, 2, 9, 10]
  | .cfgbuild => [0, 8]

/-- The number a decimal text stands for, most significant digit first (R90). -/
def decimalValue (text : List Byte) : Nat := text.foldl (fun n b => 10 * n + (b.toNat - 0x30)) 0

/-- `paddingAdjusted`, by the number of trailing pads (R142). -/
def paddingAdjusted : Nat → Nat
  | 0 => 0
  | 1 => 1
  | 3 => 2
  | 4 => 3
  | 6 => 4
  | _ => 0

/-- A Base32 text has the structure the decoder accepts: `p` is the index of its first pad, or its length (R130, R133). -/
def Accepted (v : Variant) (T : List Byte) (p : Nat) : Prop :=
  (∀ i, i < p → ∃ k, inv v (T.getD i 0#8) = .sym k) ∧
    ((p = T.length ∧ p % 8 ∈ [0, 2, 4, 5, 7]) ∨
      (p < T.length ∧ p % 8 ∈ [2, 4, 5, 7] ∧ T.length = p + (8 - p % 8) ∧
        ∀ j, p ≤ j → j < T.length → T.getD j 0#8 = padByte))

/-- `p` is the index of the first pad of a text, or its length if it has none (R130). -/
def IsFirstPad (T : List Byte) (p : Nat) : Prop :=
  p ≤ T.length ∧ (∀ i, i < p → T.getD i 0#8 ≠ padByte) ∧ (p < T.length → T.getD p 0#8 = padByte)

end Sys2Proof
end

