-- ==== Sys2Proof/Certificates/Slice0/Obligations.lean ====
section
/-! DEFINITION. The statements for the provers. Each docstring names the rule of spec/ it formalises, or the sections it
rests on. -/

open Sys2Proof
open Sys2Proof.Machine

/-! ## The command word -/

/-- 30_encoding.md R82, R83: a word decodes to a command exactly when it is that command's word. -/
def Obligations.WordsDecodeExactlyAsEncoded : Prop :=
  ∀ (w : Word) (i : Instr), decodeCmd w = .ok i ↔ w = encode i

/-- R83: "A word `w` selects a row exactly when `w & mask = match`; the rows are mutually exclusive; a word that selects no
row is `Illegal`." -/
def Obligations.OpcodeMapDecidesEveryWord : Prop :=
  ∀ w : Word,
    (∃ i, decodeCmd w = .ok i ∧ w &&& (rowOf i).mask = (rowOf i).pat ∧
      ∀ r ∈ opcodeMap, w &&& r.mask = r.pat → r = rowOf i) ∨
    ((∃ e, decodeCmd w = .error e) ∧ ∀ r ∈ opcodeMap, w &&& r.mask ≠ r.pat)

/-- 95_test_vectors.md section 8: sample words, legal and illegal. -/
def Obligations.SampleWordsDecode : Prop :=
  decodeCmd 0x00000001#32 = .ok (.b32encF .std) ∧ decodeCmd 0x00000031#32 = .ok (.b32encI .hex) ∧
    decodeCmd 0x00000041#32 = .ok (.b32encC .std) ∧ decodeCmd 0x00000012#32 = .ok (.b32decF .hex) ∧
    decodeCmd 0x00000022#32 = .ok (.b32decI .std) ∧ decodeCmd 0x00000052#32 = .ok (.b32decC .hex) ∧
    decodeCmd 0x00000003#32 = .ok .htrunc ∧ decodeCmd 0x00000004#32 = .ok .hfmt ∧
    decodeCmd 0x00000005#32 = .ok .hcode ∧ decodeCmd 0x00000006#32 = .ok .cfgbuild ∧
    decodeCmd 0x00000000#32 = .error .reservedOp ∧ decodeCmd 0x00000061#32 = .error .reservedShape ∧
    decodeCmd 0x00000013#32 = .error .variantOrShapeSet ∧ decodeCmd 0x80000001#32 = .error .reservedBits

/-- 10_state.md R22, 20_memory.md R64: when the next event writes a word to CMD that decodes to a command, the step is that
command on the state with the event taken off. -/
def Obligations.StepRunsTheDecodedCommand : Prop :=
  ∀ (s : State) (w : Word) (i : Instr) (rest : List Event),
    s.port = .op (.regWrite 0#32 w) :: rest → decodeCmd w = .ok i → step s = exec i { s with port := rest }

/-- 60_exceptions.md R219: "Writing an illegal command word sets `STATUS <- {DONE=1, EKIND=K_USAGE, ECODE=E_ILLCMD}`,
`EINFO <- 0`, and changes nothing else". -/
def Obligations.IllegalWordReportsAndChangesNothingElse : Prop :=
  ∀ (s : State) (w : Word) (rest : List Event),
    s.port = .op (.regWrite 0#32 w) :: rest → (∀ i, w ≠ encode i) →
      step s = .next { s with port := rest, status := 0xE1#8, einfo := 0#32 }

/-! ## The port -/

/-- 10_state.md R39: a reserved index reads 0 and ignores a write; nothing else changes and nothing is reported. -/
def Obligations.ReservedIndicesReadZeroIgnoreWrites : Prop :=
  ∀ (s : State) (idx w : Word) (rest : List Event), 15 ≤ idx.toNat →
    (s.port = .op (.regWrite idx w) :: rest → step s = .next { s with port := rest }) ∧
    (s.port = .op (.regRead idx) :: rest → step s = .next { s with port := rest, trace := s.trace ++ [.reg 0#32] })

/-- 10_state.md section 2: a host write to a read-write register stores the bits the register has (31 of BIN, 1 of
CFG_CHECKSUM_IN, 32 of the others) and changes no other register and no buffer; one to a read-only register is ignored. -/
def Obligations.HostWriteStoresTheRegistersBits : Prop :=
  ∀ (s : State) (r : Reg) (w : Word) (rest : List Event), s.port = .op (.regWrite (regIdx r) w) :: rest →
    (r ∈ [Reg.inPos, .inLimit, .outCap, .hashLen, .bin, .cfgDigitsIn, .cfgOffsetIn, .cfgChecksumIn] →
      ∃ t, step s = .next t ∧
        t.reg r = (if r = .bin then w &&& 0x7FFFFFFF#32 else if r = .cfgChecksumIn then w &&& 1#32 else w) ∧
        (∀ r', r' ≠ r → t.reg r' = s.reg r') ∧ (∀ sp off, t.byteAt sp off = s.byteAt sp off) ∧
        t.par = s.par ∧ t.stream = s.stream ∧ t.port = rest ∧ t.trace = s.trace) ∧
    (r ∈ [Reg.status, .einfo, .outLen, .toff, .code, .cfg] → step s = .next { s with port := rest })

/-- 20_memory.md section 1: a register read hands back the register's value, zero-extended, CMD reading 0, and changes
nothing. -/
def Obligations.RegisterReadHandsBackTheValue : Prop :=
  ∀ (s : State) (r : Reg) (rest : List Event), s.port = .op (.regRead (regIdx r)) :: rest →
    ∃ w : Word, step s = .next { s with port := rest, trace := s.trace ++ [.reg w] } ∧
      w.toNat = match r with
        | .cmd => 0
        | .status => s.status.toNat
        | .einfo => s.einfo.toNat
        | .inPos => s.inPos.toNat
        | .inLimit => s.inLimit.toNat
        | .outCap => s.outCap.toNat
        | .outLen => s.outLen.toNat
        | .hashLen => s.hashLen.toNat
        | .bin => s.bin.toNat
        | .toff => s.toff.toNat
        | .code => s.code.toNat
        | .cfgDigitsIn => s.cfgDigitsIn.toNat
        | .cfgOffsetIn => s.cfgOffsetIn.toNat
        | .cfgChecksumIn => s.cfgChecksumIn.toNat
        | .cfg => s.cfg.toNat

/-- 20_memory.md section 1: a buffer write inside IN or HASH stores that byte and no other; one inside OUT has no effect;
no register changes. -/
def Obligations.BufferWriteStoresOneByte : Prop :=
  ∀ (s : State) (sp : Space) (off : Nat) (b : Byte) (rest : List Event),
    s.port = .op (.bufWrite sp off b) :: rest → off < s.par.size sp →
      ∃ t, step s = .next t ∧
        (∀ sp' off', t.byteAt sp' off' = if sp' = sp ∧ off' = off ∧ sp ≠ .out then b else s.byteAt sp' off') ∧
        (∀ r, t.reg r = s.reg r) ∧ t.par = s.par ∧ t.stream = s.stream ∧ t.port = rest ∧ t.trace = s.trace

/-- 20_memory.md section 1: a buffer read inside the buffer hands back the byte and changes nothing. -/
def Obligations.BufferReadHandsBackTheByte : Prop :=
  ∀ (s : State) (sp : Space) (off : Nat) (rest : List Event),
    s.port = .op (.bufRead sp off) :: rest → off < s.par.size sp →
      step s = .next { s with port := rest, trace := s.trace ++ [.byte (s.byteAt sp off)] }

/-- 20_memory.md section 1, 70_reset_and_hazards.md section 4: the only events refused are the buffer operations at or
beyond the buffer's size; no command is ever refused. -/
def Obligations.OnlyOffsetsBeyondTheBufferAreRefused : Prop :=
  ∀ (s : State) (e : Event) (rest : List Event), s.port = e :: rest →
    ((∃ r, step s = .refused r) ↔
      ∃ sp off, s.par.size sp ≤ off ∧ (e = .op (.bufRead sp off) ∨ ∃ b, e = .op (.bufWrite sp off b)))

/-- 20_memory.md section 2: events take effect one at a time, in the order issued: a step takes exactly the first, and hands
back at most one value, after those handed back before. -/
def Obligations.EventsAreTakenInOrder : Prop :=
  ∀ (s t : State) (e : Event) (rest : List Event), s.port = e :: rest → step s = .next t →
    t.port = rest ∧ (t.trace = s.trace ∨ ∃ x, t.trace = s.trace ++ [x])

/-! ## Reset -/

/-- 10_state.md R52: every register reads 0 after a reset, and no byte of a buffer has a definite value: each is what a draw
not used before gives it. -/
def Obligations.ResetZeroesRegistersAndUnspecifiesBuffers : Prop :=
  (∀ r, State.reset.reg r = 0#32) ∧ (∀ sp, (State.reset.buf sp).mem = []) ∧
    ∀ (s : State) (rest : List Event), s.port = .reset :: rest →
      ∃ t, step s = .next t ∧ (∀ r, t.reg r = 0#32) ∧
        (∀ sp off, t.byteAt sp off = Config.freeByte s.stream s.draws sp off) ∧
        t.par = s.par ∧ t.stream = s.stream ∧ t.port = rest ∧ t.trace = s.trace

/-- 70_reset_and_hazards.md R247: what each command does straight after reset, and that every command sets DONE. -/
def Obligations.CommandsStraightAfterReset : Prop :=
  (∀ (par : Params) (stream draw : Nat) (port : List Event) (trace : List ReadValue),
    let s := State.afterReset par stream draw port trace
    s.reg .status = 0#32 ∧
    (∀ i, isBase32 i = true → ∃ t, exec i s = .next t ∧ Succeeded t ∧ t.outLen = 0#32 ∧ t.out = s.out) ∧
    (∀ i ∈ [Instr.htrunc, .hfmt, .hcode], ∃ t, exec i s = .next t ∧ t.status = 0xE9#8 ∧ t.einfo = 0#32) ∧
    ∃ t, exec .cfgbuild s = .next t ∧ t.status = 0x98#8 ∧ t.einfo = 1#32 ∧ t.cfg = 0#32) ∧
  ∀ (i : Instr) (s t : State), exec i s = .next t → statusDone t.status = true

/-! ## The constant tables -/

/-- 10_state.md R46: the inverse table: the three classes, 32 symbols, one pad, 223 illegal bytes, among them the
lowercase letters in both variants, the digits 0, 1, 8, 9 in Standard and the letters W to Z in Extended-Hex. -/
def Obligations.InverseTableInvertsTheAlphabet : Prop :=
  ∀ v : Variant,
    (∀ b, inv v b = .pad ↔ b = padByte) ∧ (∀ b k, inv v b = .sym k ↔ b = alpha v k) ∧
    (∀ j k, alpha v j = alpha v k → j = k) ∧ (∀ k, alpha v k ≠ padByte) ∧
    ((List.range 256).filter fun n => inv v (BitVec.ofNat 8 n) == .ill).length = 223 ∧
    ((List.range 256).filter fun n => inv v (BitVec.ofNat 8 n) == .pad).length = 1 ∧
    (∀ b : Byte, 0x61 ≤ b.toNat → b.toNat ≤ 0x7A → inv v b = .ill) ∧
    (∀ b ∈ [0x30#8, 0x31#8, 0x38#8, 0x39#8], inv .std b = .ill) ∧
    ∀ b ∈ [0x57#8, 0x58#8, 0x59#8, 0x5A#8], inv .hex b = .ill

/-! ## Base32 encode -/

/-- 40_base32_encode.md R110: the length of an encoding. -/
def Obligations.EncodingLength : Prop :=
  (∀ (v : Variant) (S : List Byte), (encodeCore v S).length = encLen S.length) ∧
    (∀ n, encLen n = 8 * ((n + 4) / 5)) ∧ encLen 0 = 0 ∧ (∀ n, 1 ≤ n → n ≤ 5 → encLen n = 8) ∧ encLen 6 = 16

/-- 40_base32_encode.md R111: every full group of five bytes gives the eight symbols of the table, in place. -/
def Obligations.FullGroupEncodesAsTheTableSays : Prop :=
  ∀ (v : Variant) (S rest : List Byte) (B0 B1 B2 B3 B4 : Byte), 5 ∣ S.length →
    encodeCore v (S ++ [B0, B1, B2, B3, B4] ++ rest) =
      encodeCore v S ++
        [alpha v (B0.extractLsb' 3 5), alpha v (B0.extractLsb' 0 3 ++ B1.extractLsb' 6 2),
          alpha v (B1.extractLsb' 1 5), alpha v (B1.extractLsb' 0 1 ++ B2.extractLsb' 4 4),
          alpha v (B2.extractLsb' 0 4 ++ B3.extractLsb' 7 1), alpha v (B3.extractLsb' 2 5),
          alpha v (B3.extractLsb' 0 2 ++ B4.extractLsb' 5 3), alpha v (B4.extractLsb' 0 5)] ++
        encodeCore v rest

/-- 40_base32_encode.md R112, R113: the tails of 1, 2, 3 and 4 bytes: the symbols, the zero fill and the pads. -/
def Obligations.TailEncodesWithZeroFillAndPads : Prop :=
  ∀ (v : Variant) (S : List Byte) (B0 B1 B2 B3 : Byte), 5 ∣ S.length →
    (∀ b ∈ encodeCore v S, b ≠ padByte) ∧
    encodeCore v (S ++ [B0]) =
      encodeCore v S ++ [alpha v (B0.extractLsb' 3 5), alpha v (B0.extractLsb' 0 3 ++ 0#2)] ++
        List.replicate 6 padByte ∧
    encodeCore v (S ++ [B0, B1]) =
      encodeCore v S ++
        [alpha v (B0.extractLsb' 3 5), alpha v (B0.extractLsb' 0 3 ++ B1.extractLsb' 6 2),
          alpha v (B1.extractLsb' 1 5), alpha v (B1.extractLsb' 0 1 ++ 0#4)] ++
        List.replicate 4 padByte ∧
    encodeCore v (S ++ [B0, B1, B2]) =
      encodeCore v S ++
        [alpha v (B0.extractLsb' 3 5), alpha v (B0.extractLsb' 0 3 ++ B1.extractLsb' 6 2),
          alpha v (B1.extractLsb' 1 5), alpha v (B1.extractLsb' 0 1 ++ B2.extractLsb' 4 4),
          alpha v (B2.extractLsb' 0 4 ++ 0#1)] ++
        List.replicate 3 padByte ∧
    encodeCore v (S ++ [B0, B1, B2, B3]) =
      encodeCore v S ++
        [alpha v (B0.extractLsb' 3 5), alpha v (B0.extractLsb' 0 3 ++ B1.extractLsb' 6 2),
          alpha v (B1.extractLsb' 1 5), alpha v (B1.extractLsb' 0 1 ++ B2.extractLsb' 4 4),
          alpha v (B2.extractLsb' 0 4 ++ B3.extractLsb' 7 1), alpha v (B3.extractLsb' 2 5),
          alpha v (B3.extractLsb' 0 2 ++ 0#3)] ++
        List.replicate 1 padByte

/-- 40_base32_encode.md section 4: the length is a multiple of 8; the pads are the last 0, 6, 4, 3 or 1 bytes, by the length
modulo 5, and every byte before them is a symbol; the other alphabet replaces symbol for symbol. -/
def Obligations.EncodedTextShape : Prop :=
  (∀ (v : Variant) (S : List Byte),
    ∃ K : List (BitVec 5), encodeCore v S =
      K.map (alpha v) ++ List.replicate ([0, 6, 4, 3, 1].getD (S.length % 5) 0) padByte) ∧
  (∀ (v : Variant) (S : List Byte), 8 ∣ (encodeCore v S).length) ∧
  ∀ S : List Byte, ∃ (K : List (BitVec 5)) (q : Nat),
    encodeCore .std S = K.map (alpha .std) ++ List.replicate q padByte ∧
    encodeCore .hex S = K.map (alpha .hex) ++ List.replicate q padByte

/-- 40_base32_encode.md section 3: B32ENC.F completes whenever its range is inside IN and the text fits OUT; its result and
its frame. -/
def Obligations.EncodeFreshDelivers : Prop :=
  ∀ (v : Variant) (s : State), s.par.admitted = true → RangeOk s →
    encLen (s.inLimit.toNat - s.inPos.toNat) ≤ s.par.outSize →
      ∃ t, exec (.b32encF v) s = .next t ∧ Succeeded t ∧ Delivered s t (encodeCore v (inputOf s)) ∧
        t.inPos = s.inPos ∧ SameOperands s t ∧ SameHotpResults s t ∧ t.cfg = s.cfg ∧ SameHostSide s t

/-- 40_base32_encode.md section 3: B32ENC.I completes whenever its range is inside IN, OUT_CAP inside OUT, and the text fits
OUT_CAP; its result and its frame. -/
def Obligations.EncodeIntoDelivers : Prop :=
  ∀ (v : Variant) (s : State), RangeOk s → s.outCap.toNat ≤ s.par.outSize →
    encLen (s.inLimit.toNat - s.inPos.toNat) ≤ s.outCap.toNat →
      ∃ t, exec (.b32encI v) s = .next t ∧ Succeeded t ∧ Delivered s t (encodeCore v (inputOf s)) ∧
        t.inPos = s.inPos ∧ SameOperands s t ∧ SameHotpResults s t ∧ t.cfg = s.cfg ∧ SameHostSide s t

/-- 40_base32_encode.md section 3: B32ENC.C completes as B32ENC.F does and moves IN_POS to IN_LIMIT. -/
def Obligations.EncodeCursorDeliversAndAdvances : Prop :=
  ∀ (v : Variant) (s : State), s.par.admitted = true → RangeOk s →
    encLen (s.inLimit.toNat - s.inPos.toNat) ≤ s.par.outSize →
      ∃ t, exec (.b32encC v) s = .next t ∧ Succeeded t ∧ Delivered s t (encodeCore v (inputOf s)) ∧
        t.inPos = s.inLimit ∧ SameOperands s t ∧ SameHotpResults s t ∧ t.cfg = s.cfg ∧ SameHostSide s t

/-- 40_base32_encode.md R116: the overflow guard fires exactly above 2684354555 bytes, and then every shape reports
`E_ALLOC`, whatever the capacity. -/
def Obligations.EncodeOverflowGuard : Prop :=
  (∀ n, 2 ^ 32 - 1 < encLen n ↔ 2684354555 < n) ∧
  ∀ (v : Variant) (s : State), RangeOk s → 2684354555 < s.inLimit.toNat - s.inPos.toNat →
    (∃ t, exec (.b32encF v) s = .next t ∧ t.status = 0xD3#8 ∧ t.einfo = 0#32 ∧ t.outLen = 0#32) ∧
    (∃ t, exec (.b32encC v) s = .next t ∧ t.status = 0xD3#8 ∧ t.einfo = 0#32 ∧ t.outLen = 0#32) ∧
    (s.outCap.toNat ≤ s.par.outSize →
      ∃ t, exec (.b32encI v) s = .next t ∧ t.status = 0xD3#8 ∧ t.einfo = 0#32 ∧ t.outLen = 0#32)

/-- 60_exceptions.md section 1, 40_base32_encode.md section 2: a text that does not fit: `E_ALLOC` in the shapes F and C,
`E_SIZE` of kind `K_RESOURCE` in the shape I. -/
def Obligations.EncodeWithoutRoomFails : Prop :=
  ∀ (v : Variant) (s : State), RangeOk s →
    (s.par.outSize < encLen (s.inLimit.toNat - s.inPos.toNat) →
      (∃ t, exec (.b32encF v) s = .next t ∧ t.status = 0xD3#8 ∧ t.einfo = 0#32) ∧
      ∃ t, exec (.b32encC v) s = .next t ∧ t.status = 0xD3#8 ∧ t.einfo = 0#32) ∧
    (s.outCap.toNat ≤ s.par.outSize → s.outCap.toNat < encLen (s.inLimit.toNat - s.inPos.toNat) →
      encLen (s.inLimit.toNat - s.inPos.toNat) < 2 ^ 32 →
        ∃ t, exec (.b32encI v) s = .next t ∧ t.status = 0xD4#8 ∧ t.einfo = 0#32)

/-- 40_base32_encode.md R120: whenever two of the three encode commands succeed on the same state they write the same OUT
and the same OUT_LEN; they differ at most in IN_POS. -/
def Obligations.EncodeShapesAgree : Prop :=
  ∀ (v : Variant) (s t u : State) (i j : Instr),
    i ∈ [Instr.b32encF v, .b32encI v, .b32encC v] → j ∈ [Instr.b32encF v, .b32encI v, .b32encC v] →
    exec i s = .next t → exec j s = .next u → t.status = 0x80#8 → u.status = 0x80#8 →
      u = { t with inPos := u.inPos } ∧ t.outLen.toNat = encLen (s.inLimit.toNat - s.inPos.toNat)

/-- 60_exceptions.md section 1: the operand ranges of all six Base32 commands, in the order of the tests. -/
def Obligations.Base32RangeErrors : Prop :=
  ∀ (i : Instr) (s : State), isBase32 i = true →
    (s.inLimit.toNat < s.inPos.toNat → ∃ t, exec i s = .next t ∧ t.status = 0xE2#8 ∧ t.einfo = 1#32) ∧
    (s.inPos.toNat ≤ s.inLimit.toNat → s.par.inSize < s.inLimit.toNat →
      ∃ t, exec i s = .next t ∧ t.status = 0xE2#8 ∧ t.einfo = 2#32) ∧
    (RangeOk s → s.par.outSize < s.outCap.toNat → (∃ v, i = .b32encI v ∨ i = .b32decI v) →
      ∃ t, exec i s = .next t ∧ t.status = 0xE2#8 ∧ t.einfo = 3#32)

/-! ## Base32 decode -/

/-- 41_base32_decode.md R150: decoding an encoding gives the bytes back, in both alphabets, with the pads or with them
stripped; and an accepted text need not be the encoding of what it decodes to. -/
def Obligations.DecodeInvertsEncode : Prop :=
  (∀ (v : Variant) (S : List Byte), decodeCore v (encodeCore v S) = .ok S) ∧
  (∀ (v : Variant) (S : List Byte), decodeCore v ((encodeCore v S).filter fun b => b != padByte) = .ok S) ∧
  ∀ v : Variant, ∃ T S, decodeCore v T = .ok S ∧ encodeCore v S ≠ T

/-- 41_base32_decode.md R133: acceptance in one sentence. -/
def Obligations.DecoderAcceptsExactly : Prop :=
  ∀ (v : Variant) (T : List Byte) (p : Nat), IsFirstPad T p →
    ((∃ bytes, decodeCore v T = .ok bytes) ↔ Accepted v T p)

/-- 41_base32_decode.md R134: the smallest index before the first pad that holds an illegal byte is reported, whatever else
is wrong, and only then; at the command, EINFO is its absolute index in IN. -/
def Obligations.FirstIllegalCharacterIsReported : Prop :=
  (∀ (v : Variant) (T : List Byte) (p i : Nat), IsFirstPad T p →
    (decodeCore v T = .err .illchar i ↔
      i < p ∧ inv v (T.getD i 0#8) = .ill ∧ ∀ j, j < i → inv v (T.getD j 0#8) ≠ .ill)) ∧
  ∀ (v : Variant) (s : State) (i : Nat) (cmd : Instr),
    cmd ∈ [Instr.b32decF v, .b32decI v, .b32decC v] → RangeOk s →
    (cmd = .b32decI v → s.outCap.toNat ≤ s.par.outSize) → decodeCore v (inputOf s) = .err .illchar i →
      ∃ t, exec cmd s = .next t ∧ t.status = 0xC5#8 ∧ t.einfo.toNat = s.inPos.toNat + i

/-- 41_base32_decode.md R135, R136, R138, R139: the structural errors of a text with no illegal byte before its first pad. -/
def Obligations.StructuralErrors : Prop :=
  ∀ (v : Variant) (T : List Byte) (p : Nat), IsFirstPad T p → (∀ i, i < p → inv v (T.getD i 0#8) ≠ .ill) →
    (p < T.length → p % 8 ∉ [2, 4, 5, 7] → decodeCore v T = .err .endunit 0) ∧
    (p < T.length → p % 8 ∈ [2, 4, 5, 7] →
      (T.length ≠ p + (8 - p % 8) ∨ ∃ j, p ≤ j ∧ j < T.length ∧ T.getD j 0#8 ≠ padByte) →
        decodeCore v T = .err .endunit 0) ∧
    (p = T.length → p % 8 ∈ [3, 6] → decodeCore v T = .err .endunit 0) ∧
    (p = T.length → p % 8 = 1 → decodeCore v T = .err .lastunit 0)

/-- 41_base32_decode.md R142: the decoded length, and OTP's formula for a text of whole 8-byte groups. -/
def Obligations.DecodedLength : Prop :=
  ∀ (v : Variant) (T bytes : List Byte) (p : Nat), IsFirstPad T p → decodeCore v T = .ok bytes →
    bytes.length = 5 * (p / 8) + tailBytes (p % 8) ∧
    (8 ∣ T.length → bytes.length = 5 * ((T.length + 7) / 8) - paddingAdjusted (T.length - p)) ∧
    bytes.length ≤ 5 * ((T.length + 7) / 8)

/-- 41_base32_decode.md R140: every full group of eight symbols gives the five bytes of the table, in place. -/
def Obligations.FullGroupDecodesAsTheTableSays : Prop :=
  ∀ (v : Variant) (K : List (BitVec 5)) (k0 k1 k2 k3 k4 k5 k6 k7 : BitVec 5) (rest out : List Byte),
    8 ∣ K.length → decodeCore v rest = .ok out →
      ∃ front, decodeCore v (K.map (alpha v)) = .ok front ∧
        decodeCore v (K.map (alpha v) ++ [k0, k1, k2, k3, k4, k5, k6, k7].map (alpha v) ++ rest) =
          .ok (front ++
            [k0 ++ k1.extractLsb' 2 3, k1.extractLsb' 0 2 ++ k2 ++ k3.extractLsb' 4 1,
              k3.extractLsb' 0 4 ++ k4.extractLsb' 1 4, k4.extractLsb' 0 1 ++ k5 ++ k6.extractLsb' 3 2,
              k6.extractLsb' 0 3 ++ k7] ++ out)

/-- 41_base32_decode.md R141: the tails of 2, 4, 5 and 7 symbols, bare or completed by pads, give the whole bytes they
carry; the low bits of the last symbol are in none of them: they do not matter, whatever their value. -/
def Obligations.TailDecodesIgnoringLowBits : Prop :=
  ∀ (v : Variant) (k0 k1 k2 k3 k4 k5 k6 : BitVec 5),
    (∀ q ∈ [0, 6], decodeCore v ([k0, k1].map (alpha v) ++ List.replicate q padByte) =
      .ok [k0 ++ k1.extractLsb' 2 3]) ∧
    (∀ q ∈ [0, 4], decodeCore v ([k0, k1, k2, k3].map (alpha v) ++ List.replicate q padByte) =
      .ok [k0 ++ k1.extractLsb' 2 3, k1.extractLsb' 0 2 ++ k2 ++ k3.extractLsb' 4 1]) ∧
    (∀ q ∈ [0, 3], decodeCore v ([k0, k1, k2, k3, k4].map (alpha v) ++ List.replicate q padByte) =
      .ok [k0 ++ k1.extractLsb' 2 3, k1.extractLsb' 0 2 ++ k2 ++ k3.extractLsb' 4 1,
        k3.extractLsb' 0 4 ++ k4.extractLsb' 1 4]) ∧
    (∀ q ∈ [0, 1], decodeCore v ([k0, k1, k2, k3, k4, k5, k6].map (alpha v) ++ List.replicate q padByte) =
      .ok [k0 ++ k1.extractLsb' 2 3, k1.extractLsb' 0 2 ++ k2 ++ k3.extractLsb' 4 1,
        k3.extractLsb' 0 4 ++ k4.extractLsb' 1 4, k4.extractLsb' 0 1 ++ k5 ++ k6.extractLsb' 3 2])

/-- 41_base32_decode.md section 5: B32DEC.F completes whenever its range is inside IN, the text is accepted and its bytes
fit OUT; its result and its frame. -/
def Obligations.DecodeFreshDelivers : Prop :=
  ∀ (v : Variant) (s : State) (bytes : List Byte), RangeOk s → decodeCore v (inputOf s) = .ok bytes →
    bytes.length ≤ s.par.outSize →
      ∃ t, exec (.b32decF v) s = .next t ∧ Succeeded t ∧ Delivered s t bytes ∧
        t.inPos = s.inPos ∧ SameOperands s t ∧ SameHotpResults s t ∧ t.cfg = s.cfg ∧ SameHostSide s t

/-- 41_base32_decode.md section 5: B32DEC.I completes whenever its range is inside IN, OUT_CAP inside OUT, the text is
accepted and its bytes fit OUT_CAP; its result and its frame. -/
def Obligations.DecodeIntoDelivers : Prop :=
  ∀ (v : Variant) (s : State) (bytes : List Byte), RangeOk s → s.outCap.toNat ≤ s.par.outSize →
    decodeCore v (inputOf s) = .ok bytes → bytes.length ≤ s.outCap.toNat →
      ∃ t, exec (.b32decI v) s = .next t ∧ Succeeded t ∧ Delivered s t bytes ∧
        t.inPos = s.inPos ∧ SameOperands s t ∧ SameHotpResults s t ∧ t.cfg = s.cfg ∧ SameHostSide s t

/-- 41_base32_decode.md section 5: B32DEC.C completes as B32DEC.F does and moves IN_POS to IN_LIMIT. -/
def Obligations.DecodeCursorDeliversAndAdvances : Prop :=
  ∀ (v : Variant) (s : State) (bytes : List Byte), RangeOk s → decodeCore v (inputOf s) = .ok bytes →
    bytes.length ≤ s.par.outSize →
      ∃ t, exec (.b32decC v) s = .next t ∧ Succeeded t ∧ Delivered s t bytes ∧
        t.inPos = s.inLimit ∧ SameOperands s t ∧ SameHotpResults s t ∧ t.cfg = s.cfg ∧ SameHostSide s t

/-- 41_base32_decode.md section 4, 60_exceptions.md section 1: a rejected text reports its own code before any capacity is
looked at; an accepted one that does not fit reports `E_ALLOC` in the shapes F and C, `E_SIZE` of kind `K_MALFORMED` in the
shape I. -/
def Obligations.DecodeFailures : Prop :=
  ∀ (v : Variant) (s : State), RangeOk s →
    (∀ cmd ∈ [Instr.b32decF v, .b32decI v, .b32decC v],
      (cmd = .b32decI v → s.outCap.toNat ≤ s.par.outSize) →
      (decodeCore v (inputOf s) = .err .endunit 0 → ∃ t, exec cmd s = .next t ∧ t.status = 0xC6#8 ∧ t.einfo = 0#32) ∧
      (decodeCore v (inputOf s) = .err .lastunit 0 →
        ∃ t, exec cmd s = .next t ∧ t.status = 0xC7#8 ∧ t.einfo = 0#32)) ∧
    ∀ bytes, decodeCore v (inputOf s) = .ok bytes →
      (s.par.outSize < bytes.length →
        (∃ t, exec (.b32decF v) s = .next t ∧ t.status = 0xD3#8 ∧ t.einfo = 0#32) ∧
        ∃ t, exec (.b32decC v) s = .next t ∧ t.status = 0xD3#8 ∧ t.einfo = 0#32) ∧
      (s.outCap.toNat ≤ s.par.outSize → s.outCap.toNat < bytes.length →
        ∃ t, exec (.b32decI v) s = .next t ∧ t.status = 0xC4#8 ∧ t.einfo = 0#32)

/-! ## HOTP -/

/-- 42_hotp_truncate_format.md R163, R164, R165: the offset selected, that it is 0 to 15, that a fixed offset always fits
and a dynamic one whenever the hash has 19 bytes or more; and the boundary: from 20 bytes on every configured offset 0 to 15
is used as configured, with fewer the offsets from the length less 4 on behave as the dynamic sentinel. -/
def Obligations.SelectedOffset : Prop :=
  ∀ (o : Int) (H : List Byte), -1 ≤ o → o ≤ 15 → 1 ≤ H.length →
    (0 ≤ o → o < (H.length : Int) - 4 →
      (selectOffset o H : Int) = o ∧ selectOffset o H + 4 ≤ H.length) ∧
    (¬(0 ≤ o ∧ o < (H.length : Int) - 4) → selectOffset o H = (H.getD (H.length - 1) 0#8).toNat % 16) ∧
    selectOffset o H ≤ 15 ∧ (19 ≤ H.length → selectOffset o H + 4 ≤ H.length) ∧
    (0 ≤ o → 20 ≤ H.length → (selectOffset o H : Int) = o) ∧
    (0 ≤ o → (H.length : Int) - 4 ≤ o → selectOffset o H = selectOffset (-1) H)

/-- 42_hotp_truncate_format.md R166: the extraction: the big-endian concatenation of the four bytes, bits 30:0. -/
def Obligations.ExtractionIsBigEndian31 : Prop :=
  ∀ (H : List Byte) (off : Nat) (b0 b1 b2 b3 : Byte),
    H[off]? = some b0 → H[off + 1]? = some b1 → H[off + 2]? = some b2 → H[off + 3]? = some b3 →
      extract31 H off = (b0 ++ b1 ++ b2 ++ b3).extractLsb' 0 31 ∧
      (extract31 H off).toNat = b0.toNat % 128 * 2 ^ 24 + b1.toNat * 2 ^ 16 + b2.toNat * 2 ^ 8 + b3.toNat

/-- 42_hotp_truncate_format.md section 2: HTRUNC completes whenever its conditions hold; BIN and TOFF, and its frame. -/
def Obligations.HtruncTruncates : Prop :=
  ∀ s : State, TruncationOk s →
    ∃ t, exec .htrunc s = .next t ∧ Succeeded t ∧
      (let off := selectOffset (cfgOffset s.cfg) (hashOf s)
      t.toff.toNat = off ∧
      t.bin.toNat = (s.byteAt .hash off).toNat % 128 * 2 ^ 24 + (s.byteAt .hash (off + 1)).toNat * 2 ^ 16 +
        (s.byteAt .hash (off + 2)).toNat * 2 ^ 8 + (s.byteAt .hash (off + 3)).toNat) ∧
      t.code = s.code ∧ t.out = s.out ∧ t.outLen = s.outLen ∧ t.inPos = s.inPos ∧ SameOperands s t ∧ t.cfg = s.cfg ∧
      SameHostSide s t

/-- 42_hotp_truncate_format.md R169: the checksum: the digits from the right, those at even positions through the
reduction table {0,2,4,6,8,1,3,5,7,9}, exactly `digits` of them; the total and the checksum digit add up to a multiple of 10. -/
def Obligations.ChecksumDigit : Prop :=
  ∀ code digits : Nat,
    let total := ((List.range digits).map fun i =>
      if i % 2 = 0 then [0, 2, 4, 6, 8, 1, 3, 5, 7, 9].getD (code / 10 ^ i % 10) 0 else code / 10 ^ i % 10).sum
    checksum code digits = (10 - total % 10) % 10 ∧ checksum code digits ≤ 9 ∧ (total + checksum code digits) % 10 = 0

/-- 42_hotp_truncate_format.md R172: the string has `w` characters, all decimal digits, and read as a number it is the
value: nothing is cut off. -/
def Obligations.DecimalRendering : Prop :=
  ∀ (binary digits : Nat) (ck : Bool), 6 ≤ digits → digits ≤ 8 →
    let r := hotpFormat binary digits ck
    let value := if ck then r.1 * 10 + checksum r.1 digits else r.1
    let w := if ck then digits + 1 else digits
    r.1 = binary % 10 ^ digits ∧ r.2.length = w ∧ (∀ b ∈ r.2, 0x30 ≤ b.toNat ∧ b.toNat ≤ 0x39) ∧
      decimalValue r.2 = value ∧
      ∀ i, i < w → ((r.2.getD i 0#8).toNat : Nat) = 0x30 + value / 10 ^ (w - 1 - i) % 10

/-- 42_hotp_truncate_format.md R179: without checksum, a code of fewer digits is the last digits of a longer one; the
checksum digit depends on the number of digits. -/
def Obligations.MoreDigitsExtendToTheLeft : Prop :=
  (∀ (binary d : Nat), 6 ≤ d → d ≤ 7 →
    (hotpFormat binary d false).1 = (hotpFormat binary (d + 1) false).1 % 10 ^ d ∧
    (hotpFormat binary d false).2 = (hotpFormat binary (d + 1) false).2.drop 1) ∧
  ∃ binary : Nat, binary < 2 ^ 31 ∧ checksum (binary % 10 ^ 6) 6 ≠ checksum (binary % 10 ^ 7) 7

/-- 42_hotp_truncate_format.md section 3: HFMT completes whenever a legal configuration has been built: CODE, the string in
OUT, and its frame. -/
def Obligations.HfmtFormats : Prop :=
  ∀ s : State, s.par.admitted = true → cfgLegal s.cfg = true → cfgValid s.cfg = true →
    ∃ t, exec .hfmt s = .next t ∧ Succeeded t ∧
      t.code.toNat = s.bin.toNat % 10 ^ cfgDigits s.cfg ∧
      Delivered s t (hotpFormat s.bin.toNat (cfgDigits s.cfg) (cfgChecksum s.cfg)).2 ∧
      t.outLen.toNat = cfgDigits s.cfg + (if cfgChecksum s.cfg then 1 else 0) ∧
      t.bin = s.bin ∧ t.toff = s.toff ∧ t.inPos = s.inPos ∧ SameOperands s t ∧ t.cfg = s.cfg ∧ SameHostSide s t

/-- 42_hotp_truncate_format.md section 3: HCODE completes whenever HTRUNC's conditions hold under a legal configuration: the
offset, the value, the code and the string, and its frame. -/
def Obligations.HcodeComputesTheCode : Prop :=
  ∀ s : State, s.par.admitted = true → cfgLegal s.cfg = true → TruncationOk s →
    ∃ t, exec .hcode s = .next t ∧ Succeeded t ∧
      (let off := selectOffset (cfgOffset s.cfg) (hashOf s)
      t.toff.toNat = off ∧
      t.bin.toNat = (s.byteAt .hash off).toNat % 128 * 2 ^ 24 + (s.byteAt .hash (off + 1)).toNat * 2 ^ 16 +
        (s.byteAt .hash (off + 2)).toNat * 2 ^ 8 + (s.byteAt .hash (off + 3)).toNat) ∧
      t.code.toNat = t.bin.toNat % 10 ^ cfgDigits s.cfg ∧
      Delivered s t (hotpFormat t.bin.toNat (cfgDigits s.cfg) (cfgChecksum s.cfg)).2 ∧
      t.inPos = s.inPos ∧ SameOperands s t ∧ t.cfg = s.cfg ∧ SameHostSide s t

/-- 42_hotp_truncate_format.md R177: "Its successful end state equals that of `cmd htrunc` followed by `cmd hfmt`." -/
def Obligations.HcodeIsHtruncThenHfmt : Prop :=
  ∀ s u : State, u.status = 0x80#8 →
    (exec .hcode s = .next u ↔ ∃ t, exec .htrunc s = .next t ∧ t.status = 0x80#8 ∧ exec .hfmt t = .next u)

/-- 42_hotp_truncate_format.md section 1, 60_exceptions.md section 2: the errors of HTRUNC and HCODE in the order of the
tests. -/
def Obligations.TruncationErrors : Prop :=
  ∀ (s : State) (i : Instr), i ∈ [Instr.htrunc, .hcode] →
    (cfgValid s.cfg = false → ∃ t, exec i s = .next t ∧ t.status = 0xE9#8 ∧ t.einfo = 0#32) ∧
    (cfgValid s.cfg = true → s.hashLen.toNat < 1 ∨ 64 < s.hashLen.toNat →
      ∃ t, exec i s = .next t ∧ t.status = 0xE2#8 ∧ t.einfo = 4#32) ∧
    (cfgValid s.cfg = true → 1 ≤ s.hashLen.toNat → s.hashLen.toNat ≤ 64 →
      s.hashLen.toNat < selectOffset (cfgOffset s.cfg) (hashOf s) + 4 →
        ∃ t, exec i s = .next t ∧ t.status = 0xEA#8 ∧
          t.einfo.toNat = selectOffset (cfgOffset s.cfg) (hashOf s))

/-- 42_hotp_truncate_format.md R161: without a configuration HTRUNC, HFMT and HCODE fail with `E_NOCFG` and do nothing else
than what a failing command does. -/
def Obligations.NoConfigurationNoCode : Prop :=
  ∀ (s : State) (i : Instr), i ∈ [Instr.htrunc, .hfmt, .hcode] → cfgValid s.cfg = false →
    ∃ t, exec i s = .next t ∧ t.status = 0xE9#8 ∧ t.einfo = 0#32 ∧ t.inPos = s.inPos ∧ SameOperands s t ∧
      SameHotpResults s t ∧ t.cfg = s.cfg ∧ SameHostSide s t

/-- 42_hotp_truncate_format.md R178: the results of HTRUNC, HFMT and HCODE are functions of CFG, HASH_LEN, the hash bytes
and BIN: two states with the same of these, whatever else they hold, get the same STATUS and EINFO, and on success the same
BIN, TOFF, CODE and, from HFMT and HCODE, string. -/
def Obligations.HotpResultsDependOnNothingElse : Prop :=
  ∀ (i : Instr) (s s' t t' : State), i ∈ [Instr.htrunc, .hfmt, .hcode] →
    s'.cfg = s.cfg → s'.hashLen = s.hashLen → hashOf s' = hashOf s → (i = .hfmt → s'.bin = s.bin) →
    exec i s = .next t → exec i s' = .next t' →
      t'.status = t.status ∧ t'.einfo = t.einfo ∧
      (t.status = 0x80#8 →
        (i ≠ .hfmt → t'.bin = t.bin ∧ t'.toff = t.toff) ∧
        (i ≠ .htrunc → t'.code = t.code ∧ t'.outLen = t.outLen ∧
          t'.bytesAt .out 0 t'.outLen.toNat = t.bytesAt .out 0 t.outLen.toNat))

/-! ## Configuration -/

/-- 43_config_and_control.md section 1, 30_encoding.md R88: CFGBUILD completes whenever the staged digits are 6 to 8 and the
staged offset -1 to 15: the fields of CFG, and its frame. -/
def Obligations.CfgbuildCommits : Prop :=
  ∀ s : State, 6 ≤ s.cfgDigitsIn.toInt → s.cfgDigitsIn.toInt ≤ 8 → -1 ≤ s.cfgOffsetIn.toInt →
    s.cfgOffsetIn.toInt ≤ 15 →
      ∃ t, exec .cfgbuild s = .next t ∧ Succeeded t ∧
        t.cfg.toNat = 2 ^ 31 + (s.cfgOffsetIn.toInt % 32).toNat * 2 ^ 5 + s.cfgChecksumIn.toNat * 2 ^ 4 +
          s.cfgDigitsIn.toNat ∧
        cfgValid t.cfg = true ∧ (cfgDigits t.cfg : Int) = s.cfgDigitsIn.toInt ∧
        cfgOffset t.cfg = s.cfgOffsetIn.toInt ∧ (cfgChecksum t.cfg = true ↔ s.cfgChecksumIn = 1#1) ∧
        cfgLegal t.cfg = true ∧
        t.out = s.out ∧ t.outLen = s.outLen ∧ t.inPos = s.inPos ∧ SameOperands s t ∧ SameHotpResults s t ∧
        SameHostSide s t

/-- 43_config_and_control.md R192: "A failed CFGBUILD changes nothing but STATUS and EINFO"; the digits are tested first. -/
def Obligations.FailedCfgbuildChangesNothing : Prop :=
  ∀ s : State,
    (s.cfgDigitsIn.toInt < 6 ∨ 8 < s.cfgDigitsIn.toInt →
      exec .cfgbuild s = .next { s with status := 0x98#8, einfo := 1#32 }) ∧
    (6 ≤ s.cfgDigitsIn.toInt → s.cfgDigitsIn.toInt ≤ 8 → s.cfgOffsetIn.toInt < -1 ∨ 15 < s.cfgOffsetIn.toInt →
      exec .cfgbuild s = .next { s with status := 0x98#8, einfo := 2#32 })

/-- 10_state.md R38: CFG is 0 at reset, and every step keeps it 0 or a valid configuration. -/
def Obligations.CfgStaysLegal : Prop :=
  State.reset.cfg = 0#32 ∧ ∀ s t : State, cfgLegal s.cfg = true → step s = .next t → cfgLegal t.cfg = true

/-! ## The whole machine -/

/-- 60_exceptions.md R221: what a failing command does and does not change. -/
def Obligations.FailureEffect : Prop :=
  ∀ (i : Instr) (s t : State), exec i s = .next t → statusCode t.status ≠ 0#4 →
    t.inPos = s.inPos ∧ SameOperands s t ∧ SameHotpResults s t ∧ t.cfg = s.cfg ∧ SameHostSide s t ∧
    (i ≠ .htrunc → i ≠ .cfgbuild →
      t.outLen = 0#32 ∧ ∀ off, t.byteAt .out off = Config.freeByte s.stream s.draws .out off) ∧
    (i = .htrunc ∨ i = .cfgbuild → t.outLen = s.outLen ∧ t.out = s.out)

/-- 10_state.md R51: a command writes only what its row lists. -/
def Obligations.WriteSets : Prop :=
  ∀ (i : Instr) (s t : State), exec i s = .next t →
    SameOperands s t ∧ SameHostSide s t ∧
    (movesCursor i = false → t.inPos = s.inPos) ∧
    (i ≠ .htrunc → i ≠ .hcode → t.bin = s.bin ∧ t.toff = s.toff) ∧
    (i ≠ .hfmt → i ≠ .hcode → t.code = s.code) ∧
    (i ≠ .cfgbuild → t.cfg = s.cfg) ∧
    (i = .htrunc ∨ i = .cfgbuild → t.out = s.out ∧ t.outLen = s.outLen) ∧
    (statusCode t.status = 0#4 → i ≠ .htrunc → i ≠ .cfgbuild →
      ∀ off, t.outLen.toNat ≤ off → t.byteAt .out off = s.byteAt .out off)

/-- 60_exceptions.md R225: which codes each command can produce. -/
def Obligations.PossibleErrorCodes : Prop :=
  ∀ (i : Instr) (s t : State), exec i s = .next t → statusCode t.status ∈ possibleCodes i

/-- 60_exceptions.md section 1: under admitted parameters no command accesses a buffer outside its bounds: every command
ends in a next state, from every state, and no step faults. -/
def Obligations.NoCommandLeavesTheBuffers : Prop :=
  ∀ s : State, s.par.admitted = true →
    (∀ i, ∃ t, exec i s = .next t) ∧ ∀ f, step s ≠ .fault f

/-- 20_memory.md section 3: a Base32 command reads no byte of IN outside its range: replacing IN by a buffer that agrees on
the range changes nothing else of the outcome. Where the command fails, this says too that both runs leave the same
unspecified bytes in OUT: that is no rule of the spec but the model's choice, log entry 2, by which two runs from states with
the same stream and the same next draw draw the same bytes. -/
def Obligations.Base32ReadsOnlyItsRange : Prop :=
  ∀ (i : Instr) (s t : State) (b : Buffer), isBase32 i = true →
    (∀ off, s.inPos.toNat ≤ off → off < s.inLimit.toNat →
      ({ s with inp := b } : State).byteAt .inp off = s.byteAt .inp off) →
    exec i s = .next t → exec i { s with inp := b } = .next { t with inp := b }

/-- The invariant of the machine (10_state.md section 2, 60_exceptions.md section 1): legal CFG and STATUS, canonical
buffers inside their sizes, results inside their ranges; every step keeps it. -/
def Obligations.StepKeepsSound : Prop := ∀ s t : State, Sound s → step s = .next t → Sound t

/-- The invariant holds right after reset: of State.reset, whose sizes are the model's choice, log entry 1; of an instance
reset with any admitted parameters; and of every instance of a system reset with any admitted parameters, which is itself
admitted and has those parameters (00_scope.md section 3). -/
def Obligations.ResetIsSound : Prop :=
  Sound State.reset ∧
  (∀ (par : Params) (stream draw : Nat) (port : List Event) (trace : List ReadValue), par.admitted = true →
    Sound (State.afterReset par stream draw port trace)) ∧
  ∀ ps : List Params, Params.systemAdmitted ps = true →
    System.admitted (System.reset ps) = true ∧ System.params (System.reset ps) = ps ∧ ∀ s ∈ System.reset ps, Sound s

/-- 20_memory.md section 4, 60_exceptions.md section 4, 00_scope.md section 3: a step of one instance is that instance's own
step, no other instance changes, and the number of instances and their sizes stay as they are, so that an admitted system
stays one. -/
def Obligations.InstancesShareNothing : Prop :=
  ∀ (S T : System) (k : Nat), System.step S k = .next T →
    T.length = S.length ∧ (∀ j, j ≠ k → T[j]? = S[j]?) ∧
      (∃ s t, S[k]? = some s ∧ step s = .next t ∧ T[k]? = some t) ∧
      System.params T = System.params S ∧ (System.admitted S = true → System.admitted T = true)
end

