-- ==== Sys2Proof/Laws/State.lean ====
section
/-! SUPPORT. One lemma per field for each update of the state, true by unfolding once, so that no proof unfolds a record
update again. -/

namespace Sys2Proof.Machine

/-! ### report -/

@[simp] theorem report_status (s : State) (st : BitVec 8) (info : Word) : (s.report st info).status = st := rfl
@[simp] theorem report_einfo (s : State) (st : BitVec 8) (info : Word) : (s.report st info).einfo = info := rfl
@[simp] theorem report_inPos (s : State) (st : BitVec 8) (info : Word) : (s.report st info).inPos = s.inPos := rfl
@[simp] theorem report_inLimit (s : State) (st : BitVec 8) (info : Word) : (s.report st info).inLimit = s.inLimit := rfl
@[simp] theorem report_outCap (s : State) (st : BitVec 8) (info : Word) : (s.report st info).outCap = s.outCap := rfl
@[simp] theorem report_outLen (s : State) (st : BitVec 8) (info : Word) : (s.report st info).outLen = s.outLen := rfl
@[simp] theorem report_hashLen (s : State) (st : BitVec 8) (info : Word) : (s.report st info).hashLen = s.hashLen := rfl
@[simp] theorem report_bin (s : State) (st : BitVec 8) (info : Word) : (s.report st info).bin = s.bin := rfl
@[simp] theorem report_toff (s : State) (st : BitVec 8) (info : Word) : (s.report st info).toff = s.toff := rfl
@[simp] theorem report_code (s : State) (st : BitVec 8) (info : Word) : (s.report st info).code = s.code := rfl
@[simp] theorem report_cfgDigitsIn (s : State) (st : BitVec 8) (info : Word) : (s.report st info).cfgDigitsIn = s.cfgDigitsIn := rfl
@[simp] theorem report_cfgOffsetIn (s : State) (st : BitVec 8) (info : Word) : (s.report st info).cfgOffsetIn = s.cfgOffsetIn := rfl
@[simp] theorem report_cfgChecksumIn (s : State) (st : BitVec 8) (info : Word) : (s.report st info).cfgChecksumIn = s.cfgChecksumIn := rfl
@[simp] theorem report_cfg (s : State) (st : BitVec 8) (info : Word) : (s.report st info).cfg = s.cfg := rfl
@[simp] theorem report_inp (s : State) (st : BitVec 8) (info : Word) : (s.report st info).inp = s.inp := rfl
@[simp] theorem report_out (s : State) (st : BitVec 8) (info : Word) : (s.report st info).out = s.out := rfl
@[simp] theorem report_hash (s : State) (st : BitVec 8) (info : Word) : (s.report st info).hash = s.hash := rfl
@[simp] theorem report_par (s : State) (st : BitVec 8) (info : Word) : (s.report st info).par = s.par := rfl
@[simp] theorem report_stream (s : State) (st : BitVec 8) (info : Word) : (s.report st info).stream = s.stream := rfl
@[simp] theorem report_draws (s : State) (st : BitVec 8) (info : Word) : (s.report st info).draws = s.draws := rfl
@[simp] theorem report_port (s : State) (st : BitVec 8) (info : Word) : (s.report st info).port = s.port := rfl
@[simp] theorem report_trace (s : State) (st : BitVec 8) (info : Word) : (s.report st info).trace = s.trace := rfl

/-! ### succeed -/

@[simp] theorem succeed_status (s : State) : (s.succeed).status = okStatus := rfl
@[simp] theorem succeed_einfo (s : State) : (s.succeed).einfo = 0#32 := rfl
@[simp] theorem succeed_inPos (s : State) : (s.succeed).inPos = s.inPos := rfl
@[simp] theorem succeed_inLimit (s : State) : (s.succeed).inLimit = s.inLimit := rfl
@[simp] theorem succeed_outCap (s : State) : (s.succeed).outCap = s.outCap := rfl
@[simp] theorem succeed_outLen (s : State) : (s.succeed).outLen = s.outLen := rfl
@[simp] theorem succeed_hashLen (s : State) : (s.succeed).hashLen = s.hashLen := rfl
@[simp] theorem succeed_bin (s : State) : (s.succeed).bin = s.bin := rfl
@[simp] theorem succeed_toff (s : State) : (s.succeed).toff = s.toff := rfl
@[simp] theorem succeed_code (s : State) : (s.succeed).code = s.code := rfl
@[simp] theorem succeed_cfgDigitsIn (s : State) : (s.succeed).cfgDigitsIn = s.cfgDigitsIn := rfl
@[simp] theorem succeed_cfgOffsetIn (s : State) : (s.succeed).cfgOffsetIn = s.cfgOffsetIn := rfl
@[simp] theorem succeed_cfgChecksumIn (s : State) : (s.succeed).cfgChecksumIn = s.cfgChecksumIn := rfl
@[simp] theorem succeed_cfg (s : State) : (s.succeed).cfg = s.cfg := rfl
@[simp] theorem succeed_inp (s : State) : (s.succeed).inp = s.inp := rfl
@[simp] theorem succeed_out (s : State) : (s.succeed).out = s.out := rfl
@[simp] theorem succeed_hash (s : State) : (s.succeed).hash = s.hash := rfl
@[simp] theorem succeed_par (s : State) : (s.succeed).par = s.par := rfl
@[simp] theorem succeed_stream (s : State) : (s.succeed).stream = s.stream := rfl
@[simp] theorem succeed_draws (s : State) : (s.succeed).draws = s.draws := rfl
@[simp] theorem succeed_port (s : State) : (s.succeed).port = s.port := rfl
@[simp] theorem succeed_trace (s : State) : (s.succeed).trace = s.trace := rfl

/-! ### loseOut -/

@[simp] theorem loseOut_status (s : State) : (s.loseOut).status = s.status := rfl
@[simp] theorem loseOut_einfo (s : State) : (s.loseOut).einfo = s.einfo := rfl
@[simp] theorem loseOut_inPos (s : State) : (s.loseOut).inPos = s.inPos := rfl
@[simp] theorem loseOut_inLimit (s : State) : (s.loseOut).inLimit = s.inLimit := rfl
@[simp] theorem loseOut_outCap (s : State) : (s.loseOut).outCap = s.outCap := rfl
@[simp] theorem loseOut_outLen (s : State) : (s.loseOut).outLen = 0#32 := rfl
@[simp] theorem loseOut_hashLen (s : State) : (s.loseOut).hashLen = s.hashLen := rfl
@[simp] theorem loseOut_bin (s : State) : (s.loseOut).bin = s.bin := rfl
@[simp] theorem loseOut_toff (s : State) : (s.loseOut).toff = s.toff := rfl
@[simp] theorem loseOut_code (s : State) : (s.loseOut).code = s.code := rfl
@[simp] theorem loseOut_cfgDigitsIn (s : State) : (s.loseOut).cfgDigitsIn = s.cfgDigitsIn := rfl
@[simp] theorem loseOut_cfgOffsetIn (s : State) : (s.loseOut).cfgOffsetIn = s.cfgOffsetIn := rfl
@[simp] theorem loseOut_cfgChecksumIn (s : State) : (s.loseOut).cfgChecksumIn = s.cfgChecksumIn := rfl
@[simp] theorem loseOut_cfg (s : State) : (s.loseOut).cfg = s.cfg := rfl
@[simp] theorem loseOut_inp (s : State) : (s.loseOut).inp = s.inp := rfl
@[simp] theorem loseOut_out (s : State) : (s.loseOut).out = Buffer.unspecified s.draws := rfl
@[simp] theorem loseOut_hash (s : State) : (s.loseOut).hash = s.hash := rfl
@[simp] theorem loseOut_par (s : State) : (s.loseOut).par = s.par := rfl
@[simp] theorem loseOut_stream (s : State) : (s.loseOut).stream = s.stream := rfl
@[simp] theorem loseOut_draws (s : State) : (s.loseOut).draws = s.draws + 1 := rfl
@[simp] theorem loseOut_port (s : State) : (s.loseOut).port = s.port := rfl
@[simp] theorem loseOut_trace (s : State) : (s.loseOut).trace = s.trace := rfl

/-! ### raiseIllegal -/

@[simp] theorem raiseIllegal_status (s : State) : (raiseIllegal s).status = illegalStatus := rfl
@[simp] theorem raiseIllegal_einfo (s : State) : (raiseIllegal s).einfo = 0#32 := rfl
@[simp] theorem raiseIllegal_inPos (s : State) : (raiseIllegal s).inPos = s.inPos := rfl
@[simp] theorem raiseIllegal_inLimit (s : State) : (raiseIllegal s).inLimit = s.inLimit := rfl
@[simp] theorem raiseIllegal_outCap (s : State) : (raiseIllegal s).outCap = s.outCap := rfl
@[simp] theorem raiseIllegal_outLen (s : State) : (raiseIllegal s).outLen = s.outLen := rfl
@[simp] theorem raiseIllegal_hashLen (s : State) : (raiseIllegal s).hashLen = s.hashLen := rfl
@[simp] theorem raiseIllegal_bin (s : State) : (raiseIllegal s).bin = s.bin := rfl
@[simp] theorem raiseIllegal_toff (s : State) : (raiseIllegal s).toff = s.toff := rfl
@[simp] theorem raiseIllegal_code (s : State) : (raiseIllegal s).code = s.code := rfl
@[simp] theorem raiseIllegal_cfgDigitsIn (s : State) : (raiseIllegal s).cfgDigitsIn = s.cfgDigitsIn := rfl
@[simp] theorem raiseIllegal_cfgOffsetIn (s : State) : (raiseIllegal s).cfgOffsetIn = s.cfgOffsetIn := rfl
@[simp] theorem raiseIllegal_cfgChecksumIn (s : State) : (raiseIllegal s).cfgChecksumIn = s.cfgChecksumIn := rfl
@[simp] theorem raiseIllegal_cfg (s : State) : (raiseIllegal s).cfg = s.cfg := rfl
@[simp] theorem raiseIllegal_inp (s : State) : (raiseIllegal s).inp = s.inp := rfl
@[simp] theorem raiseIllegal_out (s : State) : (raiseIllegal s).out = s.out := rfl
@[simp] theorem raiseIllegal_hash (s : State) : (raiseIllegal s).hash = s.hash := rfl
@[simp] theorem raiseIllegal_par (s : State) : (raiseIllegal s).par = s.par := rfl
@[simp] theorem raiseIllegal_stream (s : State) : (raiseIllegal s).stream = s.stream := rfl
@[simp] theorem raiseIllegal_draws (s : State) : (raiseIllegal s).draws = s.draws := rfl
@[simp] theorem raiseIllegal_port (s : State) : (raiseIllegal s).port = s.port := rfl
@[simp] theorem raiseIllegal_trace (s : State) : (raiseIllegal s).trace = s.trace := rfl

/-! ### setTruncation -/

@[simp] theorem setTruncation_status (s : State) (off : Nat) (b : BitVec 31) : (s.setTruncation off b).status = s.status := rfl
@[simp] theorem setTruncation_einfo (s : State) (off : Nat) (b : BitVec 31) : (s.setTruncation off b).einfo = s.einfo := rfl
@[simp] theorem setTruncation_inPos (s : State) (off : Nat) (b : BitVec 31) : (s.setTruncation off b).inPos = s.inPos := rfl
@[simp] theorem setTruncation_inLimit (s : State) (off : Nat) (b : BitVec 31) : (s.setTruncation off b).inLimit = s.inLimit := rfl
@[simp] theorem setTruncation_outCap (s : State) (off : Nat) (b : BitVec 31) : (s.setTruncation off b).outCap = s.outCap := rfl
@[simp] theorem setTruncation_outLen (s : State) (off : Nat) (b : BitVec 31) : (s.setTruncation off b).outLen = s.outLen := rfl
@[simp] theorem setTruncation_hashLen (s : State) (off : Nat) (b : BitVec 31) : (s.setTruncation off b).hashLen = s.hashLen := rfl
@[simp] theorem setTruncation_bin (s : State) (off : Nat) (b : BitVec 31) : (s.setTruncation off b).bin = b := rfl
@[simp] theorem setTruncation_toff (s : State) (off : Nat) (b : BitVec 31) : (s.setTruncation off b).toff = BitVec.ofNat 4 off := rfl
@[simp] theorem setTruncation_code (s : State) (off : Nat) (b : BitVec 31) : (s.setTruncation off b).code = s.code := rfl
@[simp] theorem setTruncation_cfgDigitsIn (s : State) (off : Nat) (b : BitVec 31) : (s.setTruncation off b).cfgDigitsIn = s.cfgDigitsIn := rfl
@[simp] theorem setTruncation_cfgOffsetIn (s : State) (off : Nat) (b : BitVec 31) : (s.setTruncation off b).cfgOffsetIn = s.cfgOffsetIn := rfl
@[simp] theorem setTruncation_cfgChecksumIn (s : State) (off : Nat) (b : BitVec 31) : (s.setTruncation off b).cfgChecksumIn = s.cfgChecksumIn := rfl
@[simp] theorem setTruncation_cfg (s : State) (off : Nat) (b : BitVec 31) : (s.setTruncation off b).cfg = s.cfg := rfl
@[simp] theorem setTruncation_inp (s : State) (off : Nat) (b : BitVec 31) : (s.setTruncation off b).inp = s.inp := rfl
@[simp] theorem setTruncation_out (s : State) (off : Nat) (b : BitVec 31) : (s.setTruncation off b).out = s.out := rfl
@[simp] theorem setTruncation_hash (s : State) (off : Nat) (b : BitVec 31) : (s.setTruncation off b).hash = s.hash := rfl
@[simp] theorem setTruncation_par (s : State) (off : Nat) (b : BitVec 31) : (s.setTruncation off b).par = s.par := rfl
@[simp] theorem setTruncation_stream (s : State) (off : Nat) (b : BitVec 31) : (s.setTruncation off b).stream = s.stream := rfl
@[simp] theorem setTruncation_draws (s : State) (off : Nat) (b : BitVec 31) : (s.setTruncation off b).draws = s.draws := rfl
@[simp] theorem setTruncation_port (s : State) (off : Nat) (b : BitVec 31) : (s.setTruncation off b).port = s.port := rfl
@[simp] theorem setTruncation_trace (s : State) (off : Nat) (b : BitVec 31) : (s.setTruncation off b).trace = s.trace := rfl

/-! ### applyReset -/

@[simp] theorem applyReset_status (s : State) : (applyReset s).status = 0#8 := rfl
@[simp] theorem applyReset_einfo (s : State) : (applyReset s).einfo = 0#32 := rfl
@[simp] theorem applyReset_inPos (s : State) : (applyReset s).inPos = 0#32 := rfl
@[simp] theorem applyReset_inLimit (s : State) : (applyReset s).inLimit = 0#32 := rfl
@[simp] theorem applyReset_outCap (s : State) : (applyReset s).outCap = 0#32 := rfl
@[simp] theorem applyReset_outLen (s : State) : (applyReset s).outLen = 0#32 := rfl
@[simp] theorem applyReset_hashLen (s : State) : (applyReset s).hashLen = 0#32 := rfl
@[simp] theorem applyReset_bin (s : State) : (applyReset s).bin = 0#31 := rfl
@[simp] theorem applyReset_toff (s : State) : (applyReset s).toff = 0#4 := rfl
@[simp] theorem applyReset_code (s : State) : (applyReset s).code = 0#32 := rfl
@[simp] theorem applyReset_cfgDigitsIn (s : State) : (applyReset s).cfgDigitsIn = 0#32 := rfl
@[simp] theorem applyReset_cfgOffsetIn (s : State) : (applyReset s).cfgOffsetIn = 0#32 := rfl
@[simp] theorem applyReset_cfgChecksumIn (s : State) : (applyReset s).cfgChecksumIn = 0#1 := rfl
@[simp] theorem applyReset_cfg (s : State) : (applyReset s).cfg = 0#32 := rfl
@[simp] theorem applyReset_inp (s : State) : (applyReset s).inp = Buffer.unspecified s.draws := rfl
@[simp] theorem applyReset_out (s : State) : (applyReset s).out = Buffer.unspecified s.draws := rfl
@[simp] theorem applyReset_hash (s : State) : (applyReset s).hash = Buffer.unspecified s.draws := rfl
@[simp] theorem applyReset_par (s : State) : (applyReset s).par = s.par := rfl
@[simp] theorem applyReset_stream (s : State) : (applyReset s).stream = s.stream := rfl
@[simp] theorem applyReset_draws (s : State) : (applyReset s).draws = s.draws + 1 := rfl
@[simp] theorem applyReset_port (s : State) : (applyReset s).port = s.port := rfl
@[simp] theorem applyReset_trace (s : State) : (applyReset s).trace = s.trace := rfl

/-! ### advance -/

@[simp] theorem advance_status (sh : Shape) (s : State) : (advance sh s).status = s.status := by cases sh <;> rfl
@[simp] theorem advance_einfo (sh : Shape) (s : State) : (advance sh s).einfo = s.einfo := by cases sh <;> rfl
theorem advance_inPos (sh : Shape) (s : State) : (advance sh s).inPos = if sh = .C then s.inLimit else s.inPos := by
  cases sh <;> rfl
@[simp] theorem advance_inLimit (sh : Shape) (s : State) : (advance sh s).inLimit = s.inLimit := by cases sh <;> rfl
@[simp] theorem advance_outCap (sh : Shape) (s : State) : (advance sh s).outCap = s.outCap := by cases sh <;> rfl
@[simp] theorem advance_outLen (sh : Shape) (s : State) : (advance sh s).outLen = s.outLen := by cases sh <;> rfl
@[simp] theorem advance_hashLen (sh : Shape) (s : State) : (advance sh s).hashLen = s.hashLen := by cases sh <;> rfl
@[simp] theorem advance_bin (sh : Shape) (s : State) : (advance sh s).bin = s.bin := by cases sh <;> rfl
@[simp] theorem advance_toff (sh : Shape) (s : State) : (advance sh s).toff = s.toff := by cases sh <;> rfl
@[simp] theorem advance_code (sh : Shape) (s : State) : (advance sh s).code = s.code := by cases sh <;> rfl
@[simp] theorem advance_cfgDigitsIn (sh : Shape) (s : State) : (advance sh s).cfgDigitsIn = s.cfgDigitsIn := by cases sh <;> rfl
@[simp] theorem advance_cfgOffsetIn (sh : Shape) (s : State) : (advance sh s).cfgOffsetIn = s.cfgOffsetIn := by cases sh <;> rfl
@[simp] theorem advance_cfgChecksumIn (sh : Shape) (s : State) : (advance sh s).cfgChecksumIn = s.cfgChecksumIn := by cases sh <;> rfl
@[simp] theorem advance_cfg (sh : Shape) (s : State) : (advance sh s).cfg = s.cfg := by cases sh <;> rfl
@[simp] theorem advance_inp (sh : Shape) (s : State) : (advance sh s).inp = s.inp := by cases sh <;> rfl
@[simp] theorem advance_out (sh : Shape) (s : State) : (advance sh s).out = s.out := by cases sh <;> rfl
@[simp] theorem advance_hash (sh : Shape) (s : State) : (advance sh s).hash = s.hash := by cases sh <;> rfl
@[simp] theorem advance_par (sh : Shape) (s : State) : (advance sh s).par = s.par := by cases sh <;> rfl
@[simp] theorem advance_stream (sh : Shape) (s : State) : (advance sh s).stream = s.stream := by cases sh <;> rfl
@[simp] theorem advance_draws (sh : Shape) (s : State) : (advance sh s).draws = s.draws := by cases sh <;> rfl
@[simp] theorem advance_port (sh : Shape) (s : State) : (advance sh s).port = s.port := by cases sh <;> rfl
@[simp] theorem advance_trace (sh : Shape) (s : State) : (advance sh s).trace = s.trace := by cases sh <;> rfl

/-! ### setBuf -/

@[simp] theorem setBuf_status (s : State) (sp : Space) (b : Buffer) : (s.setBuf sp b).status = s.status := by cases sp <;> rfl
@[simp] theorem setBuf_einfo (s : State) (sp : Space) (b : Buffer) : (s.setBuf sp b).einfo = s.einfo := by cases sp <;> rfl
@[simp] theorem setBuf_inPos (s : State) (sp : Space) (b : Buffer) : (s.setBuf sp b).inPos = s.inPos := by cases sp <;> rfl
@[simp] theorem setBuf_inLimit (s : State) (sp : Space) (b : Buffer) : (s.setBuf sp b).inLimit = s.inLimit := by cases sp <;> rfl
@[simp] theorem setBuf_outCap (s : State) (sp : Space) (b : Buffer) : (s.setBuf sp b).outCap = s.outCap := by cases sp <;> rfl
@[simp] theorem setBuf_outLen (s : State) (sp : Space) (b : Buffer) : (s.setBuf sp b).outLen = s.outLen := by cases sp <;> rfl
@[simp] theorem setBuf_hashLen (s : State) (sp : Space) (b : Buffer) : (s.setBuf sp b).hashLen = s.hashLen := by cases sp <;> rfl
@[simp] theorem setBuf_bin (s : State) (sp : Space) (b : Buffer) : (s.setBuf sp b).bin = s.bin := by cases sp <;> rfl
@[simp] theorem setBuf_toff (s : State) (sp : Space) (b : Buffer) : (s.setBuf sp b).toff = s.toff := by cases sp <;> rfl
@[simp] theorem setBuf_code (s : State) (sp : Space) (b : Buffer) : (s.setBuf sp b).code = s.code := by cases sp <;> rfl
@[simp] theorem setBuf_cfgDigitsIn (s : State) (sp : Space) (b : Buffer) : (s.setBuf sp b).cfgDigitsIn = s.cfgDigitsIn := by cases sp <;> rfl
@[simp] theorem setBuf_cfgOffsetIn (s : State) (sp : Space) (b : Buffer) : (s.setBuf sp b).cfgOffsetIn = s.cfgOffsetIn := by cases sp <;> rfl
@[simp] theorem setBuf_cfgChecksumIn (s : State) (sp : Space) (b : Buffer) : (s.setBuf sp b).cfgChecksumIn = s.cfgChecksumIn := by cases sp <;> rfl
@[simp] theorem setBuf_cfg (s : State) (sp : Space) (b : Buffer) : (s.setBuf sp b).cfg = s.cfg := by cases sp <;> rfl
@[simp] theorem setBuf_par (s : State) (sp : Space) (b : Buffer) : (s.setBuf sp b).par = s.par := by cases sp <;> rfl
@[simp] theorem setBuf_stream (s : State) (sp : Space) (b : Buffer) : (s.setBuf sp b).stream = s.stream := by cases sp <;> rfl
@[simp] theorem setBuf_draws (s : State) (sp : Space) (b : Buffer) : (s.setBuf sp b).draws = s.draws := by cases sp <;> rfl
@[simp] theorem setBuf_port (s : State) (sp : Space) (b : Buffer) : (s.setBuf sp b).port = s.port := by cases sp <;> rfl
@[simp] theorem setBuf_trace (s : State) (sp : Space) (b : Buffer) : (s.setBuf sp b).trace = s.trace := by cases sp <;> rfl

theorem setBuf_buf (s : State) (sp sp' : Space) (b : Buffer) :
    (s.setBuf sp b).buf sp' = if sp' = sp then b else s.buf sp' := by
  cases sp <;> cases sp' <;> rfl

/-! ### raise -/

@[simp] theorem raise_status (cmd : Instr) (e : Err) (s : State) : (raise cmd e s).status = errStatus cmd e.code := by
  cases cmd <;> rfl
@[simp] theorem raise_einfo (cmd : Instr) (e : Err) (s : State) : (raise cmd e s).einfo = e.info := by
  cases cmd <;> rfl
@[simp] theorem raise_inPos (cmd : Instr) (e : Err) (s : State) : (raise cmd e s).inPos = s.inPos := by
  cases cmd <;> rfl
@[simp] theorem raise_inLimit (cmd : Instr) (e : Err) (s : State) : (raise cmd e s).inLimit = s.inLimit := by
  cases cmd <;> rfl
@[simp] theorem raise_outCap (cmd : Instr) (e : Err) (s : State) : (raise cmd e s).outCap = s.outCap := by
  cases cmd <;> rfl
theorem raise_outLen (cmd : Instr) (e : Err) (s : State) :
    (raise cmd e s).outLen = if writesOut cmd then 0#32 else s.outLen := by
  cases cmd <;> rfl
@[simp] theorem raise_hashLen (cmd : Instr) (e : Err) (s : State) : (raise cmd e s).hashLen = s.hashLen := by
  cases cmd <;> rfl
@[simp] theorem raise_bin (cmd : Instr) (e : Err) (s : State) : (raise cmd e s).bin = s.bin := by
  cases cmd <;> rfl
@[simp] theorem raise_toff (cmd : Instr) (e : Err) (s : State) : (raise cmd e s).toff = s.toff := by
  cases cmd <;> rfl
@[simp] theorem raise_code (cmd : Instr) (e : Err) (s : State) : (raise cmd e s).code = s.code := by
  cases cmd <;> rfl
@[simp] theorem raise_cfgDigitsIn (cmd : Instr) (e : Err) (s : State) : (raise cmd e s).cfgDigitsIn = s.cfgDigitsIn := by
  cases cmd <;> rfl
@[simp] theorem raise_cfgOffsetIn (cmd : Instr) (e : Err) (s : State) : (raise cmd e s).cfgOffsetIn = s.cfgOffsetIn := by
  cases cmd <;> rfl
@[simp] theorem raise_cfgChecksumIn (cmd : Instr) (e : Err) (s : State) : (raise cmd e s).cfgChecksumIn = s.cfgChecksumIn := by
  cases cmd <;> rfl
@[simp] theorem raise_cfg (cmd : Instr) (e : Err) (s : State) : (raise cmd e s).cfg = s.cfg := by
  cases cmd <;> rfl
@[simp] theorem raise_inp (cmd : Instr) (e : Err) (s : State) : (raise cmd e s).inp = s.inp := by
  cases cmd <;> rfl
theorem raise_out (cmd : Instr) (e : Err) (s : State) :
    (raise cmd e s).out = if writesOut cmd then Buffer.unspecified s.draws else s.out := by
  cases cmd <;> rfl
@[simp] theorem raise_hash (cmd : Instr) (e : Err) (s : State) : (raise cmd e s).hash = s.hash := by
  cases cmd <;> rfl
@[simp] theorem raise_par (cmd : Instr) (e : Err) (s : State) : (raise cmd e s).par = s.par := by
  cases cmd <;> rfl
@[simp] theorem raise_stream (cmd : Instr) (e : Err) (s : State) : (raise cmd e s).stream = s.stream := by
  cases cmd <;> rfl
theorem raise_draws (cmd : Instr) (e : Err) (s : State) :
    (raise cmd e s).draws = if writesOut cmd then s.draws + 1 else s.draws := by
  cases cmd <;> rfl
@[simp] theorem raise_port (cmd : Instr) (e : Err) (s : State) : (raise cmd e s).port = s.port := by
  cases cmd <;> rfl
@[simp] theorem raise_trace (cmd : Instr) (e : Err) (s : State) : (raise cmd e s).trace = s.trace := by
  cases cmd <;> rfl

/-! ### delivered: what `deliver` leaves when the bytes fit (R28, R71) -/

/-- OUT with the bytes written from offset 0, and their number in OUT_LEN. -/
def State.delivered (s : State) (bytes : List Byte) : State :=
  { s with out := ⟨Memory.writeList s.out.mem 0 bytes, s.out.draw⟩, outLen := BitVec.ofNat 32 bytes.length }

@[simp] theorem delivered_status (s : State) (b : List Byte) : (s.delivered b).status = s.status := rfl
@[simp] theorem delivered_einfo (s : State) (b : List Byte) : (s.delivered b).einfo = s.einfo := rfl
@[simp] theorem delivered_inPos (s : State) (b : List Byte) : (s.delivered b).inPos = s.inPos := rfl
@[simp] theorem delivered_inLimit (s : State) (b : List Byte) : (s.delivered b).inLimit = s.inLimit := rfl
@[simp] theorem delivered_outCap (s : State) (b : List Byte) : (s.delivered b).outCap = s.outCap := rfl
@[simp] theorem delivered_outLen (s : State) (b : List Byte) : (s.delivered b).outLen = BitVec.ofNat 32 b.length := rfl
@[simp] theorem delivered_hashLen (s : State) (b : List Byte) : (s.delivered b).hashLen = s.hashLen := rfl
@[simp] theorem delivered_bin (s : State) (b : List Byte) : (s.delivered b).bin = s.bin := rfl
@[simp] theorem delivered_toff (s : State) (b : List Byte) : (s.delivered b).toff = s.toff := rfl
@[simp] theorem delivered_code (s : State) (b : List Byte) : (s.delivered b).code = s.code := rfl
@[simp] theorem delivered_cfgDigitsIn (s : State) (b : List Byte) : (s.delivered b).cfgDigitsIn = s.cfgDigitsIn := rfl
@[simp] theorem delivered_cfgOffsetIn (s : State) (b : List Byte) : (s.delivered b).cfgOffsetIn = s.cfgOffsetIn := rfl
@[simp] theorem delivered_cfgChecksumIn (s : State) (b : List Byte) : (s.delivered b).cfgChecksumIn = s.cfgChecksumIn := rfl
@[simp] theorem delivered_cfg (s : State) (b : List Byte) : (s.delivered b).cfg = s.cfg := rfl
@[simp] theorem delivered_inp (s : State) (b : List Byte) : (s.delivered b).inp = s.inp := rfl
@[simp] theorem delivered_out (s : State) (b : List Byte) : (s.delivered b).out = ⟨Memory.writeList s.out.mem 0 b, s.out.draw⟩ := rfl
@[simp] theorem delivered_hash (s : State) (b : List Byte) : (s.delivered b).hash = s.hash := rfl
@[simp] theorem delivered_par (s : State) (b : List Byte) : (s.delivered b).par = s.par := rfl
@[simp] theorem delivered_stream (s : State) (b : List Byte) : (s.delivered b).stream = s.stream := rfl
@[simp] theorem delivered_draws (s : State) (b : List Byte) : (s.delivered b).draws = s.draws := rfl
@[simp] theorem delivered_port (s : State) (b : List Byte) : (s.delivered b).port = s.port := rfl
@[simp] theorem delivered_trace (s : State) (b : List Byte) : (s.delivered b).trace = s.trace := rfl

/-! ### STATUS -/

/-- The code a failing command leaves in STATUS is its own (R221). -/
@[simp] theorem statusCode_errStatus (cmd : Instr) (c : ErrCode) : statusCode (errStatus cmd c) = c.toBits := by
  unfold errStatus
  generalize kindOf cmd c = k
  cases k <;> cases c <;> rfl

@[simp] theorem statusCode_okStatus : statusCode okStatus = 0#4 := rfl

@[simp] theorem statusDone_errStatus (cmd : Instr) (c : ErrCode) : statusDone (errStatus cmd c) = true := by
  unfold errStatus
  generalize kindOf cmd c = k
  cases k <;> cases c <;> rfl

@[simp] theorem statusDone_okStatus : statusDone okStatus = true := rfl

/-- Only `E_OK` has code 0 (R215). -/
theorem ErrCode.toBits_eq_zero {c : ErrCode} : c.toBits = 0#4 ↔ c = .ok := by
  cases c <;> simp [ErrCode.toBits]

end Sys2Proof.Machine
end

