-- ==== Sys2Proof/Laws/Memory.lean ====
section
/-! SUPPORT. The laws of a buffer's memory: a read after a write, that a write leaves every other offset alone, that every
operation keeps the canonical form and the bound; and the same for reading and writing whole ranges. -/

namespace Sys2Proof.Machine

@[simp] theorem read_nil (x : Nat) : Memory.read? [] x = none := rfl

theorem read_write (m : Memory) (x y : Nat) (c : Byte) :
    Memory.read? (Memory.write m x c) y = if y = x then some c else Memory.read? m y := by
  induction m with
  | nil => simp [Memory.write, Memory.read?, eq_comm]
  | cons p m ih =>
    obtain ⟨a, b⟩ := p
    unfold Memory.write
    split
    · simp [Memory.read?, eq_comm]
    · split
      · rename_i h1 h2
        subst h2
        by_cases h : y = x
        · simp [Memory.read?, h]
        · simp [Memory.read?, h, Ne.symm h]
      · rename_i h1 h2
        by_cases hy : a = y
        · subst hy
          simp [Memory.read?, Ne.symm h2]
        · simp [Memory.read?, hy, ih]

theorem read_writeList (bs : List Byte) (m : Memory) (x y : Nat) :
    Memory.read? (Memory.writeList m x bs) y =
      if x ≤ y ∧ y < x + bs.length then bs[y - x]? else Memory.read? m y := by
  induction bs generalizing m x with
  | nil => simp [Memory.writeList]
  | cons b bs ih =>
    simp only [Memory.writeList, ih, read_write, List.length_cons]
    by_cases h : y = x
    · subst h; simp
    · by_cases h1 : x + 1 ≤ y ∧ y < x + 1 + bs.length
      · have e : y - x = (y - (x + 1)) + 1 := by omega
        rw [if_pos h1, if_pos (by omega), e]; simp
      · rw [if_neg h1, if_neg h, if_neg (by omega)]

/-- The head of a written memory is the head of the old one or the written offset. -/
theorem wf_write_cons (a : Nat) (b : Byte) (m : Memory) (x : Nat) (c : Byte) (h : Memory.wf ((a, b) :: m) = true)
    (hx : a < x) : Memory.wf ((a, b) :: Memory.write m x c) = true := by
  induction m generalizing a b with
  | nil => simp [Memory.write, Memory.wf, hx]
  | cons p m ih =>
    obtain ⟨a', b'⟩ := p
    simp only [Memory.wf, Bool.and_eq_true, decide_eq_true_eq] at h
    unfold Memory.write
    split
    · rename_i h1
      simp [Memory.wf, hx, h1, h.2]
    · split
      · rename_i h1 h2
        subst h2
        cases m with
        | nil => simp [Memory.wf, hx]
        | cons q m =>
          obtain ⟨a2, b2⟩ := q
          simpa [Memory.wf, hx] using h.2
      · rename_i h1 h2
        simp only [Memory.wf, Bool.and_eq_true, decide_eq_true_eq]
        exact ⟨h.1, ih a' b' h.2 (by omega)⟩

theorem wf_write (m : Memory) (x : Nat) (c : Byte) (h : Memory.wf m = true) :
    Memory.wf (Memory.write m x c) = true := by
  cases m with
  | nil => simp [Memory.write, Memory.wf]
  | cons p m =>
    obtain ⟨a, b⟩ := p
    unfold Memory.write
    split
    · rename_i h1
      simp [Memory.wf, h1, h]
    · split
      · rename_i h1 h2
        subst h2
        cases m with
        | nil => simp [Memory.wf]
        | cons q m => obtain ⟨a2, b2⟩ := q; simpa [Memory.wf] using h
      · rename_i h1 h2
        exact wf_write_cons a b m x c h (by omega)

theorem wf_writeList (bs : List Byte) (m : Memory) (x : Nat) (h : Memory.wf m = true) :
    Memory.wf (Memory.writeList m x bs) = true := by
  induction bs generalizing m x with
  | nil => exact h
  | cons b bs ih => exact ih _ _ (wf_write m x b h)

theorem below_write (n : Nat) (m : Memory) (x : Nat) (c : Byte) (h : Memory.below n m = true) (hx : x < n) :
    Memory.below n (Memory.write m x c) = true := by
  induction m with
  | nil => simp [Memory.write, Memory.below, hx]
  | cons p m ih =>
    obtain ⟨a, b⟩ := p
    simp only [Memory.below, List.all_cons, Bool.and_eq_true, decide_eq_true_eq] at h
    unfold Memory.write
    split
    · simpa [Memory.below, hx] using h
    · split
      · simpa [Memory.below, hx] using h.2
      · simpa [Memory.below, h.1] using ih h.2

theorem below_writeList (n : Nat) (bs : List Byte) (m : Memory) (x : Nat) (h : Memory.below n m = true)
    (hx : x + bs.length ≤ n) : Memory.below n (Memory.writeList m x bs) = true := by
  induction bs generalizing m x with
  | nil => exact h
  | cons b bs ih =>
    simp only [List.length_cons] at hx
    exact ih _ _ (below_write n m x b h (by omega)) (by omega)

@[simp] theorem bytesAt_length (s : State) (sp : Space) (off n : Nat) : (s.bytesAt sp off n).length = n := by
  simp [State.bytesAt]

theorem bytesAt_getD (s : State) (sp : Space) (off n i : Nat) (h : i < n) :
    (s.bytesAt sp off n).getD i 0#8 = s.byteAt sp (off + i) := by
  simp [State.bytesAt, h]

/-- A byte depends on the buffer of its space and the stream alone. -/
theorem byteAt_congr {s t : State} {sp : Space} (hb : t.buf sp = s.buf sp) (hs : t.stream = s.stream) (off : Nat) :
    t.byteAt sp off = s.byteAt sp off := by
  simp [State.byteAt, hb, hs]

/-- `memRead` answers exactly when the range lies inside the buffer (R10). -/
theorem memRead_eq_some {s : State} {sp : Space} {off n : Nat} (h : off + n ≤ s.par.size sp) :
    s.memRead sp off n = some (s.bytesAt sp off n) := by
  simp [State.memRead, h]

/-- What `deliver` does (R28, R71): it answers exactly when the bytes fit OUT, and then changes OUT and OUT_LEN. -/
theorem deliver_eq_some {s : State} {bytes : List Byte} (h : bytes.length ≤ s.par.outSize) :
    s.deliver bytes = some (s.delivered bytes) := by
  simp [State.deliver, State.memWrite, Params.size, h, State.setBuf, State.buf, State.delivered]

theorem deliver_eq_none {s : State} {bytes : List Byte} (h : ¬ bytes.length ≤ s.par.outSize) :
    s.deliver bytes = none := by
  simp only [State.deliver, State.memWrite, Params.size, Nat.zero_add, if_neg h, Option.map_none]

/-- The bytes of OUT after bytes were delivered: the delivered ones, then the old ones. -/
theorem byteAt_delivered {s t : State} {bytes : List Byte} (hm : t.out.mem = Memory.writeList s.out.mem 0 bytes)
    (hd : t.out.draw = s.out.draw) (hs : t.stream = s.stream) (off : Nat) :
    t.byteAt .out off = if off < bytes.length then bytes.getD off 0#8 else s.byteAt .out off := by
  simp only [State.byteAt, State.buf, hm, hd, hs, read_writeList, Nat.zero_le, true_and, Nat.zero_add, Nat.sub_zero]
  split
  · rename_i h; simp [h]
  · rfl

theorem bytesAt_delivered {s t : State} {bytes : List Byte} (hm : t.out.mem = Memory.writeList s.out.mem 0 bytes)
    (hd : t.out.draw = s.out.draw) (hs : t.stream = s.stream) : t.bytesAt .out 0 bytes.length = bytes := by
  apply List.ext_getElem
  · simp
  · intro i h1 h2
    simp only [State.bytesAt, List.getElem_map, List.getElem_range, Nat.zero_add]
    rw [byteAt_delivered hm hd hs, if_pos h2]
    simp [h2]

end Sys2Proof.Machine
end

