-- ==== Sys2Proof/Laws/Exec.lean ====
section
/-! SUPPORT. What each shared procedure can do, said once: if it answers a next state, then one of these cases holds.
Proofs about commands cite these and do not unfold the procedures. -/

namespace Sys2Proof.Machine

/-- The state a command that writes OUT leaves there: the bytes from offset 0, and their number in OUT_LEN. -/
theorem deliver_cases {s t : State} {bytes : List Byte} (h : s.deliver bytes = some t) :
    bytes.length ≤ s.par.outSize ∧
      t = s.delivered bytes := by
  by_cases hb : bytes.length ≤ s.par.outSize
  · rw [deliver_eq_some hb] at h; exact ⟨hb, (Option.some.inj h).symm⟩
  · rw [deliver_eq_none hb] at h; exact absurd h (by simp)

/-- `commitBytes` answers a next state exactly when the bytes fit OUT, and then it is this one. -/
theorem commitBytes_cases {sh : Shape} {bytes : List Byte} {s t : State} (h : commitBytes sh bytes s = .next t) :
    bytes.length ≤ s.par.outSize ∧
      t = (advance sh (s.delivered bytes)).succeed := by
  unfold commitBytes at h
  split at h
  · rename_i u hu
    obtain ⟨hb, rfl⟩ := deliver_cases hu
    exact ⟨hb, (Host.Outcome.next.inj h).symm⟩
  · cases h

theorem commitBytes_eq {sh : Shape} {bytes : List Byte} {s : State} (h : bytes.length ≤ s.par.outSize) :
    commitBytes sh bytes s =
      .next (advance sh (s.delivered bytes)).succeed := by
  unfold commitBytes; rw [deliver_eq_some h]

/-- A range check passes exactly when the range is inside IN and, in the shape I, OUT_CAP inside OUT (R218). -/
theorem rangeError_none {sh : Shape} {s : State} :
    rangeError sh s = none ↔
      s.inPos.toNat ≤ s.inLimit.toNat ∧ s.inLimit.toNat ≤ s.par.inSize ∧
        (sh = .I → s.outCap.toNat ≤ s.par.outSize) := by
  unfold rangeError
  split_ifs with h1 h2 h3 <;> simp only [false_iff, true_iff]
  · rintro ⟨a, b, c⟩; omega
  · rintro ⟨a, b, c⟩; omega
  · rintro ⟨a, b, c⟩; have := c h3.1; omega
  · exact ⟨by omega, by omega, fun hsh => Nat.le_of_not_lt fun hlt => h3 ⟨hsh, hlt⟩⟩

/-- Every range error is `E_RANGE` (R218). -/
theorem rangeError_some {sh : Shape} {s : State} {e : Err} (h : rangeError sh s = some e) :
    e.code = .range ∧ (e.info = 1#32 ∨ e.info = 2#32 ∨ e.info = 3#32) := by
  unfold rangeError at h
  split at h <;> [skip; split at h <;> [skip; split at h]] <;> simp at h <;> subst h <;> simp

/-- Every capacity error is `E_ALLOC` in the shapes F and C, `E_SIZE` in the shape I (R222). -/
theorem capacityError_some {sh : Shape} {n : Nat} {s : State} {e : Err} (h : capacityError sh n s = some e) :
    e.code = (if sh = .I then ErrCode.size else .alloc) ∧ e.info = 0#32 := by
  cases sh <;> simp only [capacityError] at h <;> split at h <;> simp at h <;> subst h <;> simp

theorem capacityError_none {sh : Shape} {n : Nat} {s : State} :
    capacityError sh n s = none ↔ n ≤ (if sh = .I then s.outCap.toNat else s.par.outSize) := by
  cases sh <;> simp [capacityError]

/-- The cases of `encodeProc`: an error of its checks raised, or the encoding of the input committed (R115). -/
theorem encodeProc_cases {cmd : Instr} {v : Variant} {sh : Shape} {s t : State}
    (h : encodeProc cmd v sh s = .next t) :
    (∃ e, encodeError sh s = some e ∧ t = raise cmd e s) ∨
    (encodeError sh s = none ∧ s.inPos.toNat + rangeLen s ≤ s.par.inSize ∧
      commitBytes sh (encodeCore v (s.bytesAt .inp s.inPos.toNat (rangeLen s))) s = .next t) := by
  unfold encodeProc at h
  split at h
  · rename_i e he; exact .inl ⟨e, he, (Host.Outcome.next.inj h).symm⟩
  · rename_i he
    unfold State.memRead at h
    by_cases hr : s.inPos.toNat + rangeLen s ≤ s.par.size .inp
    · rw [if_pos hr] at h; exact .inr ⟨he, hr, h⟩
    · rw [if_neg hr] at h; cases h

/-- Every error of an encode command's checks, by code (R225). -/
theorem encodeError_some {sh : Shape} {s : State} {e : Err} (h : encodeError sh s = some e) :
    (e.code = .range ∨ e.code = .alloc ∨ (sh = .I ∧ e.code = .size)) := by
  unfold encodeError at h
  cases hr : rangeError sh s with
  | some e' => rw [hr] at h; simp at h; subst h; exact .inl (rangeError_some hr).1
  | none =>
    rw [hr] at h
    simp only [Option.none_or] at h
    cases hl : lengthError (encLen (rangeLen s)) with
    | some e' =>
      rw [hl] at h; simp at h; subst h
      unfold lengthError at hl; split at hl <;> simp at hl
      subst hl; simp
    | none =>
      rw [hl] at h
      simp only [Option.none_or] at h
      have := (capacityError_some h).1
      split at this <;> simp_all

/-- The cases of `decodeProc`: an error raised, or the decoded bytes committed (R145). -/
theorem decodeProc_cases {cmd : Instr} {v : Variant} {sh : Shape} {s t : State}
    (h : decodeProc cmd v sh s = .next t) :
    (∃ e, rangeError sh s = some e ∧ t = raise cmd e s) ∨
    (rangeError sh s = none ∧ s.inPos.toNat + rangeLen s ≤ s.par.inSize ∧
      ((∃ c i, decodeCore v (s.bytesAt .inp s.inPos.toNat (rangeLen s)) = .err c i ∧ t = raise cmd (decodeErr s c i) s) ∨
        ∃ bytes, decodeCore v (s.bytesAt .inp s.inPos.toNat (rangeLen s)) = .ok bytes ∧
          ((∃ e, capacityError sh bytes.length s = some e ∧ t = raise cmd e s) ∨
            (capacityError sh bytes.length s = none ∧ commitBytes sh bytes s = .next t)))) := by
  unfold decodeProc at h
  split at h
  · rename_i e he; exact .inl ⟨e, he, (Host.Outcome.next.inj h).symm⟩
  · rename_i he
    unfold State.memRead at h
    by_cases hr : s.inPos.toNat + rangeLen s ≤ s.par.size .inp
    · rw [if_pos hr] at h
      refine .inr ⟨he, hr, ?_⟩
      dsimp only at h
      split at h
      · rename_i c i hd; exact .inl ⟨c, i, hd, (Host.Outcome.next.inj h).symm⟩
      · rename_i bytes hd
        refine .inr ⟨bytes, hd, ?_⟩
        split at h
        · rename_i e hc; exact .inl ⟨e, hc, (Host.Outcome.next.inj h).symm⟩
        · rename_i hc; exact .inr ⟨hc, h⟩
    · rw [if_neg hr] at h; cases h

/-- The decoder's errors (R143). -/
theorem decodeCore_err {v : Variant} {T : List Byte} {c : ErrCode} {i : Nat} (h : decodeCore v T = .err c i) :
    c = .illchar ∨ c = .endunit ∨ c = .lastunit := by
  unfold decodeCore at h
  split at h
  · simp at h; exact .inl h.1.symm
  · split at h
    · rename_i c' hs
      simp at h
      obtain ⟨rfl, -⟩ := h
      unfold structureError at hs
      (repeat' split at hs) <;> simp at hs <;> simp [← hs]
    · simp at h

/-- The cases of `truncate`: one of its three errors raised, or `k` goes on with the selected offset and the value (R167). -/
theorem truncate_cases {cmd : Instr} {s : State} {k : Nat → BitVec 31 → Host.Outcome State Fault Refusal}
    {t : State} (h : truncate cmd s k = .next t) :
    (∃ e, (e.code = .nocfg ∨ e.code = .range ∨ e.code = .hashrange) ∧ t = raise cmd e s) ∨
    (cfgValid s.cfg = true ∧ 1 ≤ s.hashLen.toNat ∧ s.hashLen.toNat ≤ 64 ∧
      (let H := s.bytesAt .hash 0 s.hashLen.toNat
      selectOffset (cfgOffset s.cfg) H + 4 ≤ s.hashLen.toNat ∧
      k (selectOffset (cfgOffset s.cfg) H) (extract31 H (selectOffset (cfgOffset s.cfg) H)) = .next t)) := by
  unfold truncate at h
  split at h
  · exact .inl ⟨_, .inl rfl, (Host.Outcome.next.inj h).symm⟩
  · rename_i hv
    split at h
    · exact .inl ⟨_, .inr (.inl rfl), (Host.Outcome.next.inj h).symm⟩
    · rename_i hl
      have hl' : 1 ≤ s.hashLen.toNat ∧ s.hashLen.toNat ≤ 64 := by simp only [hashMax] at hl; omega
      rw [memRead_eq_some (by simp only [Params.size, hashMax]; omega)] at h
      dsimp only at h
      split at h
      · exact .inl ⟨_, .inr (.inr rfl), (Host.Outcome.next.inj h).symm⟩
      · refine .inr ⟨by simpa using hv, hl'.1, hl'.2, by omega, h⟩

/-- `truncate` goes on when its conditions hold (R167). -/
theorem truncate_eq {cmd : Instr} {s : State} {k : Nat → BitVec 31 → Host.Outcome State Fault Refusal}
    (hv : cfgValid s.cfg = true) (h1 : 1 ≤ s.hashLen.toNat) (h2 : s.hashLen.toNat ≤ 64)
    (h3 : selectOffset (cfgOffset s.cfg) (s.bytesAt .hash 0 s.hashLen.toNat) + 4 ≤ s.hashLen.toNat) :
    truncate cmd s k =
      k (selectOffset (cfgOffset s.cfg) (s.bytesAt .hash 0 s.hashLen.toNat))
        (extract31 (s.bytesAt .hash 0 s.hashLen.toNat)
          (selectOffset (cfgOffset s.cfg) (s.bytesAt .hash 0 s.hashLen.toNat))) := by
  unfold truncate
  rw [if_neg (by simp [hv]), if_neg (by simp only [hashMax]; omega),
    memRead_eq_some (by simp only [Params.size, hashMax]; omega)]
  dsimp only
  rw [if_neg (by omega)]

/-- What `formatBin` does when it answers a next state (R176). -/
theorem formatBin_cases {s t : State} (h : formatBin s = .next t) :
    let r := hotpFormat s.bin.toNat (cfgDigits s.cfg) (cfgChecksum s.cfg)
    r.2.length ≤ s.par.outSize ∧
      t = ({ s.delivered r.2 with code := BitVec.ofNat 32 r.1 } : State).succeed := by
  unfold formatBin at h
  dsimp only at h ⊢
  split at h
  · rename_i u hu
    obtain ⟨hb, rfl⟩ := deliver_cases hu
    exact ⟨hb, (Host.Outcome.next.inj h).symm⟩
  · cases h

theorem formatBin_eq {s : State}
    (h : (hotpFormat s.bin.toNat (cfgDigits s.cfg) (cfgChecksum s.cfg)).2.length ≤ s.par.outSize) :
    let r := hotpFormat s.bin.toNat (cfgDigits s.cfg) (cfgChecksum s.cfg)
    formatBin s = .next
      ({ s.delivered r.2 with code := BitVec.ofNat 32 r.1 } : State).succeed := by
  unfold formatBin
  dsimp only
  rw [deliver_eq_some h]

/-- The cases of CFGBUILD (R190). -/
theorem execCfgbuild_cases {s t : State} (h : execCfgbuild s = .next t) :
    (∃ e, stagedError s = some e ∧ e.code = .cfgrange ∧ t = raise .cfgbuild e s) ∨
    (stagedError s = none ∧
      t = ({ s with cfg := packCfg (stagedDigits s) (stagedOffset s) s.cfgChecksumIn } : State).succeed) := by
  unfold execCfgbuild at h
  split at h
  · rename_i e he
    refine .inl ⟨e, he, ?_, (Host.Outcome.next.inj h).symm⟩
    unfold stagedError at he
    split at he <;> [skip; split at he] <;> simp at he <;> simp [← he]
  · rename_i he; exact .inr ⟨he, (Host.Outcome.next.inj h).symm⟩

/-- The staged configuration passes exactly when it is in range (R191). -/
theorem stagedError_none {s : State} :
    stagedError s = none ↔
      6 ≤ stagedDigits s ∧ stagedDigits s ≤ 8 ∧ -1 ≤ stagedOffset s ∧ stagedOffset s ≤ 15 := by
  unfold stagedError
  split <;> [skip; split] <;> simp <;> omega

/-- A step with nothing issued, and a step that takes the first event (R65). -/
theorem step_idle {s : State} (h : s.port = []) : step s = .next s := by
  simp [step, takeNext, h]

theorem step_takes {s : State} {e : Event} {rest : List Event} (h : s.port = e :: rest) :
    step s = takeEvent e { s with port := rest } := by
  simp [step, takeNext, h]

/-- The checks of an encode command pass exactly when these do (R115, R222). -/
theorem encodeError_none {sh : Shape} {s : State} :
    encodeError sh s = none ↔
      rangeError sh s = none ∧ encLen (rangeLen s) ≤ lenMax ∧ capacityError sh (encLen (rangeLen s)) s = none := by
  unfold encodeError lengthError
  simp only [Option.or_eq_none_iff]
  constructor
  · rintro ⟨a, b, c⟩
    refine ⟨a, ?_, c⟩
    by_contra h
    rw [if_pos (by omega)] at b
    cases b
  · rintro ⟨a, b, c⟩
    exact ⟨a, by rw [if_neg (by omega)], c⟩

/-- The range an accepted range check leaves is inside IN (R70, R218). -/
theorem rangeError_none_memRead {sh : Shape} {s : State} (h : rangeError sh s = none) :
    s.memRead .inp s.inPos.toNat (rangeLen s) = some (s.bytesAt .inp s.inPos.toNat (rangeLen s)) := by
  have := rangeError_none.1 h
  exact memRead_eq_some (by simp only [Params.size, rangeLen]; omega)

/-- An encode command whose checks pass and whose text fits OUT commits it (R115). -/
theorem encodeProc_commits {cmd : Instr} {v : Variant} {sh : Shape} {s : State} (h : encodeError sh s = none)
    (hl : (encodeCore v (s.bytesAt .inp s.inPos.toNat (rangeLen s))).length ≤ s.par.outSize) :
    encodeProc cmd v sh s =
      .next (advance sh (s.delivered (encodeCore v (s.bytesAt .inp s.inPos.toNat (rangeLen s))))).succeed := by
  unfold encodeProc
  rw [h, rangeError_none_memRead (encodeError_none.1 h).1]
  exact commitBytes_eq hl

/-- An encode command whose checks fail raises the first error (R115). -/
theorem encodeProc_fails {cmd : Instr} {v : Variant} {sh : Shape} {s : State} {e : Err}
    (h : encodeError sh s = some e) : encodeProc cmd v sh s = .next (raise cmd e s) := by
  unfold encodeProc
  rw [h]

/-- A decode command whose range check fails (R145). -/
theorem decodeProc_fails {cmd : Instr} {v : Variant} {sh : Shape} {s : State} {e : Err}
    (h : rangeError sh s = some e) : decodeProc cmd v sh s = .next (raise cmd e s) := by
  unfold decodeProc
  rw [h]

/-- A decode command on a text the decoder rejects (R145). -/
theorem decodeProc_rejects {cmd : Instr} {v : Variant} {sh : Shape} {s : State} {c : ErrCode} {i : Nat}
    (h : rangeError sh s = none)
    (hd : decodeCore v (s.bytesAt .inp s.inPos.toNat (rangeLen s)) = .err c i) :
    decodeProc cmd v sh s = .next (raise cmd (decodeErr s c i) s) := by
  unfold decodeProc
  rw [h, rangeError_none_memRead h]
  simp only [hd]

/-- A decode command whose bytes do not fit (R145). -/
theorem decodeProc_overflows {cmd : Instr} {v : Variant} {sh : Shape} {s : State} {bytes : List Byte} {e : Err}
    (h : rangeError sh s = none)
    (hd : decodeCore v (s.bytesAt .inp s.inPos.toNat (rangeLen s)) = .ok bytes)
    (hc : capacityError sh bytes.length s = some e) : decodeProc cmd v sh s = .next (raise cmd e s) := by
  unfold decodeProc
  rw [h, rangeError_none_memRead h]
  simp only [hd, hc]

/-- A decode command whose text is accepted and whose bytes fit commits them (R145). -/
theorem decodeProc_commits {cmd : Instr} {v : Variant} {sh : Shape} {s : State} {bytes : List Byte}
    (h : rangeError sh s = none)
    (hd : decodeCore v (s.bytesAt .inp s.inPos.toNat (rangeLen s)) = .ok bytes)
    (hc : capacityError sh bytes.length s = none) :
    decodeProc cmd v sh s = .next (advance sh (s.delivered bytes)).succeed := by
  unfold decodeProc
  rw [h, rangeError_none_memRead h]
  simp only [hd, hc]
  apply commitBytes_eq
  have h1 := (rangeError_none.1 h).2.2
  have h2 := capacityError_none.1 hc
  split at h2
  · rename_i hs
    have := h1 hs
    omega
  · exact h2

/-- HTRUNC and HCODE as the shared truncation (R167, R177). -/
theorem exec_htrunc (s : State) :
    exec .htrunc s = truncate .htrunc s fun off bin => .next (s.setTruncation off bin).succeed := rfl

theorem exec_hcode (s : State) :
    exec .hcode s = truncate .hcode s fun off bin => formatBin (s.setTruncation off bin) := rfl

end Sys2Proof.Machine
end

