-- ==== Sys2Proof/Laws/Codec.lean ====
section
/-! SUPPORT. The small lemmas of the Base32 functions: the bits of a group's 40-bit value, of its slices, the lengths, and
how the group recursions unfold. -/

namespace Sys2Proof.Machine

/-- The bits of the 40-bit value of five bytes: the last byte holds bits 7:0 (R111). -/
theorem byteWord_getLsbD (B0 B1 B2 B3 B4 : Byte) (i : Nat) :
    (byteWord [B0, B1, B2, B3, B4]).getLsbD i =
      if i < 8 then B4.getLsbD i
      else if i < 16 then B3.getLsbD (i - 8)
      else if i < 24 then B2.getLsbD (i - 16)
      else if i < 32 then B1.getLsbD (i - 24)
      else B0.getLsbD (i - 32) := by
  show BitVec.getLsbD (w := 8 + 8 + 8 + 8 + 8) (B0 ++ B1 ++ B2 ++ B3 ++ B4) i = _
  simp only [BitVec.getLsbD_append, Nat.sub_sub]
  split_ifs <;> first | rfl | omega

/-- The bits of the 40-bit value of eight symbols: the last symbol holds bits 4:0 (R140). -/
theorem symWord_getLsbD (k0 k1 k2 k3 k4 k5 k6 k7 : BitVec 5) (i : Nat) :
    (symWord [k0, k1, k2, k3, k4, k5, k6, k7]).getLsbD i =
      if i < 5 then k7.getLsbD i
      else if i < 10 then k6.getLsbD (i - 5)
      else if i < 15 then k5.getLsbD (i - 10)
      else if i < 20 then k4.getLsbD (i - 15)
      else if i < 25 then k3.getLsbD (i - 20)
      else if i < 30 then k2.getLsbD (i - 25)
      else if i < 35 then k1.getLsbD (i - 30)
      else k0.getLsbD (i - 35) := by
  show BitVec.getLsbD (w := 5 + 5 + 5 + 5 + 5 + 5 + 5 + 5) (k0 ++ k1 ++ k2 ++ k3 ++ k4 ++ k5 ++ k6 ++ k7) i = _
  simp only [BitVec.getLsbD_append, Nat.sub_sub]
  split_ifs <;> first | rfl | omega

/-- The bits of a 5-bit slice (R111). -/
theorem symSlice_getLsbD (W : BitVec 40) (k i : Nat) :
    (symSlice W k).getLsbD i = (decide (i < 5) && W.getLsbD (35 - 5 * k + i)) := by
  simp [symSlice, BitVec.getLsbD_extractLsb']

/-- The bits of an 8-bit slice (R140). -/
theorem byteSlice_getLsbD (W : BitVec 40) (j i : Nat) :
    (byteSlice W j).getLsbD i = (decide (i < 8) && W.getLsbD (32 - 8 * j + i)) := by
  simp [byteSlice, BitVec.getLsbD_extractLsb']

@[simp] theorem groupSyms_length (v : Variant) (W : BitVec 40) (n : Nat) : (groupSyms v W n).length = n := by
  simp [groupSyms]

@[simp] theorem groupBytes_length (W : BitVec 40) (n : Nat) : (groupBytes W n).length = n := by
  simp [groupBytes]

theorem groupSyms_eq_map (v : Variant) (W : BitVec 40) (n : Nat) :
    groupSyms v W n = ((List.range n).map (symSlice W)).map (alpha v) := by
  simp [groupSyms]

theorem encodeGroups_length (v : Variant) (g : Nat) (S : List Byte) : (encodeGroups v g S).length = 8 * g := by
  induction g generalizing S with
  | zero => rfl
  | succ g ih => simp [encodeGroups, ih]; omega

theorem decodeGroups_length (g : Nat) (K : List (BitVec 5)) :
    (decodeGroups g K).length = 5 * g + tailBytes (K.length - 8 * g) := by
  induction g generalizing K with
  | zero => simp [decodeGroups]
  | succ g ih =>
    simp only [decodeGroups, List.length_append, groupBytes_length, ih, List.length_drop]
    rw [show K.length - 8 - 8 * g = K.length - 8 * (g + 1) by omega]
    omega

/-- One full group comes off the front of an encoding (R114). -/
theorem encodeCore_group (v : Variant) (B0 B1 B2 B3 B4 : Byte) (S : List Byte) :
    encodeCore v (B0 :: B1 :: B2 :: B3 :: B4 :: S) =
      groupSyms v (byteWord [B0, B1, B2, B3, B4]) 8 ++ encodeCore v S := by
  unfold encodeCore
  have h : (B0 :: B1 :: B2 :: B3 :: B4 :: S).length / 5 = S.length / 5 + 1 := by
    simp only [List.length_cons]; omega
  rw [h, show 5 * (S.length / 5 + 1) = 5 * (S.length / 5) + 5 by omega]
  simp only [encodeGroups, List.append_assoc]
  rfl

/-- The text before the first pad is a prefix of the text (R130). -/
theorem beforePad_length_le (T : List Byte) : (beforePad T).length ≤ T.length :=
  (List.takeWhile_prefix _).length_le

/-- Groups come off the front of an encoding (R114). -/
theorem encodeCore_append (v : Variant) (S R : List Byte) (h : 5 ∣ S.length) :
    encodeCore v (S ++ R) = encodeCore v S ++ encodeCore v R := by
  obtain ⟨n, hn⟩ := h
  induction n generalizing S with
  | zero =>
    have : S = [] := List.length_eq_zero_iff.1 (by omega)
    subst this
    rfl
  | succ n ih =>
    match S, hn with
    | b0 :: b1 :: b2 :: b3 :: b4 :: S, hn =>
      simp only [List.cons_append, encodeCore_group, List.append_assoc]
      rw [ih S (by simp at hn; omega)]
    | [], hn => simp at hn
    | [_], hn => simp at hn; omega
    | [_, _], hn => simp at hn; omega
    | [_, _, _], hn => simp at hn; omega
    | [_, _, _, _], hn => simp at hn; omega

/-- No symbol is the pad (R46). -/
theorem alpha_ne_padByte (v : Variant) (k : BitVec 5) : alpha v k ≠ padByte := by
  revert k
  cases v <;> decide

/-- The inverse table on a symbol (R46). -/
theorem inv_alpha (v : Variant) (k : BitVec 5) : inv v (alpha v k) = .sym k := by
  revert k
  cases v <;> decide

/-- Looking a text of symbols up in the inverse table gives their indices back (R46). -/
theorem map_symIndex_alpha (v : Variant) (K : List (BitVec 5)) : (K.map (alpha v)).map (symIndex v) = K := by
  rw [List.map_map]
  have : symIndex v ∘ alpha v = id := by
    funext k
    simp [symIndex, inv_alpha]
  rw [this, List.map_id]

/-- Symbols in front stay before the first pad (R130). -/
theorem beforePad_append (v : Variant) (K : List (BitVec 5)) (R : List Byte) :
    beforePad (K.map (alpha v) ++ R) = K.map (alpha v) ++ beforePad R := by
  unfold beforePad
  rw [List.takeWhile_append_of_pos]
  intro b hb
  obtain ⟨k, _, rfl⟩ := List.mem_map.1 hb
  simpa using alpha_ne_padByte v k

/-- The bytes before the first pad are the text's own (R130). -/
theorem beforePad_getD (T : List Byte) (i : Nat) (h : i < (beforePad T).length) :
    (beforePad T).getD i 0#8 = T.getD i 0#8 := by
  have hp : beforePad T <+: T := List.takeWhile_prefix _
  obtain ⟨R, hR⟩ := hp
  conv_rhs => rw [← hR]
  simp only [List.getD_eq_getElem?_getD]
  rw [List.getElem?_append_left h]

/-- What the illegal-character search finds (R134). -/
theorem firstIllegal_eq_some (v : Variant) (T : List Byte) (i : Nat) :
    firstIllegal v T = some i ↔
      i < T.length ∧ inv v (T.getD i 0#8) = .ill ∧ ∀ j, j < i → inv v (T.getD j 0#8) ≠ .ill := by
  unfold firstIllegal
  rw [List.findIdx?_eq_some_iff_getElem]
  constructor
  · rintro ⟨h, h1, h2⟩
    refine ⟨h, by simpa [h] using h1, ?_⟩
    intro j hj
    have := h2 j hj
    simpa [show j < T.length by omega] using this
  · rintro ⟨h, h1, h2⟩
    refine ⟨h, by simpa [h] using h1, ?_⟩
    intro j hj
    have := h2 j hj
    simpa [show j < T.length by omega] using this

theorem firstIllegal_eq_none (v : Variant) (T : List Byte) :
    firstIllegal v T = none ↔ ∀ j, j < T.length → inv v (T.getD j 0#8) ≠ .ill := by
  unfold firstIllegal
  rw [List.findIdx?_eq_none_iff]
  constructor
  · intro h j hj
    have := h T[j] (List.getElem_mem hj)
    simpa [hj] using this
  · intro h x hx
    obtain ⟨j, hj, rfl⟩ := List.getElem_of_mem hx
    have := h j hj
    simpa [hj] using this

/-- When a text has no structural error (R135 to R139). -/
theorem structureError_eq_none (n p : Nat) (rest : List Byte) :
    structureError n p rest = none ↔
      (n ≤ p ∧ p % 8 ∈ [0, 2, 4, 5, 7]) ∨
        (p < n ∧ p % 8 ∈ [2, 4, 5, 7] ∧ n = p + (8 - p % 8) ∧ (rest.any fun b => b != padByte) = false) := by
  have h8 : p % 8 < 8 := Nat.mod_lt _ (by omega)
  unfold structureError
  generalize hr : (rest.any fun b => b != padByte) = q
  generalize hm : p % 8 = m at *
  simp only [List.mem_cons, List.not_mem_nil, or_false]
  clear hm hr
  cases q <;> split_ifs <;> simp <;> first | omega | (interval_cases m <;> simp at *)

/-- Whole groups in front do not change the structure (R130). -/
theorem structureError_add (n p a : Nat) (rest : List Byte) :
    structureError (n + 8 * a) (p + 8 * a) rest = structureError n p rest := by
  unfold structureError
  have h0 : (p + 8 * a) % 8 = p % 8 := by omega
  rw [h0]
  have h1 : (p + 8 * a < n + 8 * a) ↔ p < n := by omega
  have h2 : (n + 8 * a ≠ p + 8 * a + (8 - p % 8)) ↔ n ≠ p + (8 - p % 8) := by omega
  simp only [h1, h2]

/-- Whole groups come off the front of a decoding (R143). -/
theorem decodeGroups_append (g n : Nat) (K K' : List (BitVec 5)) (h : K.length = 8 * g) :
    decodeGroups (g + n) (K ++ K') = decodeGroups g K ++ decodeGroups n K' := by
  induction g generalizing K with
  | zero =>
    have : K = [] := List.length_eq_zero_iff.1 (by omega)
    subst this
    simp [decodeGroups, tailBytes, groupBytes]
  | succ g ih =>
    rw [show g + 1 + n = (g + n) + 1 by omega]
    simp only [decodeGroups]
    rw [List.drop_append_of_le_length (by omega), ih _ (by simp; omega), List.append_assoc]
    congr 1
    match K, h with
    | _ :: _ :: _ :: _ :: _ :: _ :: _ :: _ :: _, _ => rfl

end Sys2Proof.Machine
end

