-- ==== Sys2Proof/Laws/Step.lean ====
section
/-! SUPPORT. What a command can do and what a step can do, said once over all commands and all events. Proofs about every
command or every step cite these and unfold neither `exec` nor `step`. -/

namespace Sys2Proof.Machine

/-- How a command that answers a next state ended: an error was raised, or one of the five successful effects. -/
inductive Ended (i : Instr) (s t : State) : Prop
  /-- an error of a code the command can produce (R221, R225) -/
  | failed (e : Err) (hne : e.code ≠ .ok) (hcode : e.code.toBits ∈ possibleCodes i) (ht : t = raise i e s)
  /-- a Base32 command delivered bytes (R115, R145) -/
  | base32 (sh : Shape) (bytes : List Byte) (hb : isBase32 i = true) (hm : movesCursor i = decide (sh = .C))
      (hl : bytes.length ≤ s.par.outSize) (ht : t = (advance sh (s.delivered bytes)).succeed)
  /-- HTRUNC stored an offset and a value (R167) -/
  | truncated (off : Nat) (bin : BitVec 31) (hi : i = .htrunc) (ht : t = (s.setTruncation off bin).succeed)
  /-- HFMT formatted BIN (R176) -/
  | formatted (hi : i = .hfmt) (hv : cfgValid s.cfg = true) (hf : formatBin s = .next t)
  /-- HCODE formatted the value it computed (R177) -/
  | coded (off : Nat) (bin : BitVec 31) (hi : i = .hcode) (hv : cfgValid s.cfg = true)
      (hf : formatBin (s.setTruncation off bin) = .next t)
  /-- CFGBUILD committed the staged configuration (R190) -/
  | built (hi : i = .cfgbuild) (he : stagedError s = none)
      (ht : t = ({ s with cfg := packCfg (stagedDigits s) (stagedOffset s) s.cfgChecksumIn } : State).succeed)

theorem encodeProc_ended {i : Instr} {v : Variant} {sh : Shape} {s t : State} (h : encodeProc i v sh s = .next t)
    (hb : isBase32 i = true) (hm : movesCursor i = decide (sh = .C))
    (hc : 2#4 ∈ possibleCodes i ∧ 3#4 ∈ possibleCodes i ∧ (sh = .I → 4#4 ∈ possibleCodes i)) : Ended i s t := by
  rcases encodeProc_cases h with ⟨e, he, ht⟩ | ⟨-, -, hcm⟩
  · refine .failed e ?_ ?_ ht
    · rcases encodeError_some he with h | h | h <;> simp [h]
    · rcases encodeError_some he with h | h | ⟨h1, h⟩
      · rw [h]; exact hc.1
      · rw [h]; exact hc.2.1
      · rw [h]; exact hc.2.2 h1
  · obtain ⟨hl, ht⟩ := commitBytes_cases hcm
    exact .base32 sh _ hb hm hl ht

theorem decodeProc_ended {i : Instr} {v : Variant} {sh : Shape} {s t : State} (h : decodeProc i v sh s = .next t)
    (hb : isBase32 i = true) (hm : movesCursor i = decide (sh = .C))
    (hc : 2#4 ∈ possibleCodes i ∧ 5#4 ∈ possibleCodes i ∧ 6#4 ∈ possibleCodes i ∧ 7#4 ∈ possibleCodes i ∧
      (sh = .I → 4#4 ∈ possibleCodes i) ∧ (sh ≠ .I → 3#4 ∈ possibleCodes i)) : Ended i s t := by
  rcases decodeProc_cases h with ⟨e, he, ht⟩ | ⟨-, -, ⟨c, k, hd, ht⟩ | ⟨bytes, hd, ⟨e, he, ht⟩ | ⟨-, hcm⟩⟩⟩
  · refine .failed e ?_ ?_ ht
    · simp [(rangeError_some he).1]
    · rw [(rangeError_some he).1]; exact hc.1
  · refine .failed _ ?_ ?_ ht
    · rcases decodeCore_err hd with h | h | h <;> simp [decodeErr, h]
    · rcases decodeCore_err hd with h | h | h <;> simp only [decodeErr, h]
      · exact hc.2.1
      · exact hc.2.2.1
      · exact hc.2.2.2.1
  · refine .failed e ?_ ?_ ht
    · rw [(capacityError_some he).1]; split <;> simp
    · rw [(capacityError_some he).1]
      split
      · rename_i h; exact hc.2.2.2.2.1 h
      · rename_i h; exact hc.2.2.2.2.2 h
  · obtain ⟨hl, ht⟩ := commitBytes_cases hcm
    exact .base32 sh _ hb hm hl ht

/-- Everything a command can do when it answers a next state. -/
theorem exec_ended {i : Instr} {s t : State} (h : exec i s = .next t) : Ended i s t := by
  cases i with
  | b32encF v => exact encodeProc_ended h rfl rfl (by simp [possibleCodes])
  | b32encI v => exact encodeProc_ended h rfl rfl (by simp [possibleCodes])
  | b32encC v => exact encodeProc_ended h rfl rfl (by simp [possibleCodes])
  | b32decF v => exact decodeProc_ended h rfl rfl (by simp [possibleCodes])
  | b32decI v => exact decodeProc_ended h rfl rfl (by simp [possibleCodes])
  | b32decC v => exact decodeProc_ended h rfl rfl (by simp [possibleCodes])
  | htrunc =>
    rw [exec_htrunc] at h
    rcases truncate_cases h with ⟨e, he, ht⟩ | ⟨_, _, _, _, hk⟩
    · exact .failed e (by rcases he with h | h | h <;> simp [h])
        (by rcases he with h | h | h <;> simp [h, possibleCodes, ErrCode.toBits]) ht
    · exact .truncated _ _ rfl (Host.Outcome.next.inj hk).symm
  | hfmt =>
    simp only [exec, execHfmt] at h
    split at h
    · exact .failed ⟨.nocfg, 0#32⟩ (by simp) (by simp [possibleCodes, ErrCode.toBits]) (Host.Outcome.next.inj h).symm
    · rename_i hv; exact .formatted rfl (by simpa using hv) h
  | hcode =>
    rw [exec_hcode] at h
    rcases truncate_cases h with ⟨e, he, ht⟩ | ⟨hv, _, _, _, hk⟩
    · exact .failed e (by rcases he with h | h | h <;> simp [h])
        (by rcases he with h | h | h <;> simp [h, possibleCodes, ErrCode.toBits]) ht
    · exact .coded _ _ rfl hv hk
  | cfgbuild =>
    rcases execCfgbuild_cases (show execCfgbuild s = .next t from h) with ⟨e, _, hc, ht⟩ | ⟨he, ht⟩
    · exact .failed e (by simp [hc]) (by simp [hc, possibleCodes, ErrCode.toBits]) ht
    · exact .built rfl he ht

/-- Everything a step can do when it answers a next state: hold an idle state, or take the first event. -/
theorem step_cases {s t : State} (h : step s = .next t) :
    (s.port = [] ∧ t = s) ∨
    ∃ e rest, s.port = e :: rest ∧
      ((∃ w i, e = .op (.regWrite 0#32 w) ∧ decodeCmd w = .ok i ∧ exec i { s with port := rest } = .next t) ∨
      (∃ w r, e = .op (.regWrite 0#32 w) ∧ decodeCmd w = .error r ∧ t = raiseIllegal { s with port := rest }) ∨
      (∃ idx w, idx ≠ 0#32 ∧ e = .op (.regWrite idx w) ∧ t = ({ s with port := rest } : State).regWrite idx w) ∨
      (∃ idx, e = .op (.regRead idx) ∧ t = { s with port := rest, trace := s.trace ++ [.reg (s.regRead idx)] }) ∨
      (∃ sp off b, e = .op (.bufWrite sp off b) ∧ off < s.par.size sp ∧
        t = ({ s with port := rest } : State).bufWrite sp off b) ∨
      (∃ sp off, e = .op (.bufRead sp off) ∧ off < s.par.size sp ∧
        t = { s with port := rest, trace := s.trace ++ [.byte (s.byteAt sp off)] }) ∨
      (e = .reset ∧ t = applyReset { s with port := rest })) := by
  cases hp : s.port with
  | nil =>
    rw [step_idle hp] at h
    exact .inl ⟨rfl, (Host.Outcome.next.inj h).symm⟩
  | cons e rest =>
    refine .inr ⟨e, rest, rfl, ?_⟩
    rw [step_takes hp] at h
    cases e with
    | reset => simp only [takeEvent] at h; injection h with h; simp [h]
    | op o =>
      cases o with
      | regWrite idx w =>
        simp only [takeEvent, portOp, portRegWrite] at h
        by_cases hi : idx = 0#32
        · subst hi
          simp only [if_true, runCommandWord] at h
          cases hd : decodeCmd w with
          | ok i => rw [hd] at h; exact .inl ⟨w, i, rfl, hd, h⟩
          | error r => rw [hd] at h; exact .inr (.inl ⟨w, r, rfl, hd, (Host.Outcome.next.inj h).symm⟩)
        · rw [if_neg hi] at h
          exact .inr (.inr (.inl ⟨idx, w, hi, rfl, (Host.Outcome.next.inj h).symm⟩))
      | regRead idx =>
        simp only [takeEvent, portOp, portRegRead] at h
        exact .inr (.inr (.inr (.inl ⟨idx, rfl, (Host.Outcome.next.inj h).symm⟩)))
      | bufWrite sp off b =>
        simp only [takeEvent, portOp, portBufWrite] at h
        split at h
        · rename_i hlt
          exact .inr (.inr (.inr (.inr (.inl ⟨sp, off, b, rfl, hlt, (Host.Outcome.next.inj h).symm⟩))))
        · cases h
      | bufRead sp off =>
        simp only [takeEvent, portOp, portBufRead] at h
        split at h
        · rename_i hlt
          exact .inr (.inr (.inr (.inr (.inr (.inl ⟨sp, off, rfl, hlt, (Host.Outcome.next.inj h).symm⟩)))))
        · cases h

end Sys2Proof.Machine
end

