-- ==== Sys2Proof/Laws/Instances.lean ====
section
/-! SUPPORT. What every step keeps of an instance's parameters, and the laws of a system of instances (00_scope.md rule R4,
20_memory.md rule R75). -/

namespace Sys2Proof.Machine

/-! ### Parameters: no command and no event changes them (R20) -/

@[simp] theorem afterReset_par (par : Params) (stream draw : Nat) (port : List Event) (trace : List ReadValue) :
    (State.afterReset par stream draw port trace).par = par := rfl

@[simp] theorem setReg_par (s : State) (w : Word) (r : Reg) : (s.setReg w r).par = s.par := by cases r <;> rfl

@[simp] theorem regWrite_par (s : State) (idx w : Word) : (s.regWrite idx w).par = s.par := by
  unfold State.regWrite
  cases regOf idx with
  | none => rfl
  | some r => exact setReg_par s w r

@[simp] theorem bufWrite_par (s : State) (sp : Space) (off : Nat) (b : Byte) : (s.bufWrite sp off b).par = s.par := by
  cases sp <;> rfl

theorem exec_par {i : Instr} {s t : State} (h : exec i s = .next t) : t.par = s.par := by
  cases exec_ended h with
  | failed e hne hcode ht => simp [ht]
  | base32 sh bytes hb hm hl ht => simp [ht]
  | truncated off bin hi ht => simp [ht]
  | formatted hi hv hf => obtain ⟨-, rfl⟩ := formatBin_cases hf; simp
  | coded off bin hi hv hf => obtain ⟨-, rfl⟩ := formatBin_cases hf; simp
  | built hi he ht => simp [ht]

theorem step_par {s t : State} (h : step s = .next t) : t.par = s.par := by
  rcases step_cases h with ⟨-, rfl⟩ | ⟨e, rest, -, ⟨w, i, -, -, hx⟩ | ⟨w, r, -, -, rfl⟩ | ⟨idx, w, -, -, rfl⟩ |
    ⟨idx, -, rfl⟩ | ⟨sp, off, b, -, -, rfl⟩ | ⟨sp, off, -, -, rfl⟩ | ⟨-, rfl⟩⟩
  · rfl
  · exact (exec_par hx).trans rfl
  all_goals first | rfl | simp

/-! ### Systems -/

@[simp] theorem System.reset_length (ps : List Params) : (System.reset ps).length = ps.length := by
  simp [System.reset]

theorem System.reset_getElem? (ps : List Params) (k : Nat) :
    (System.reset ps)[k]? = ps[k]?.map fun par => State.afterReset par k 0 [] [] := by
  simp [System.reset]

/-- A system reset with the parameters `ps` has the parameters `ps`. -/
@[simp] theorem System.reset_params (ps : List Params) : (System.reset ps).params = ps := by
  apply List.ext_getElem?
  intro k
  rw [System.params, List.getElem?_map, System.reset_getElem?]
  cases ps[k]? <;> rfl

/-- An instance of a system after reset is an instance after reset, with one of the system's parameters. -/
theorem System.mem_reset {ps : List Params} {s : State} (h : s ∈ System.reset ps) :
    ∃ par k, par ∈ ps ∧ s = State.afterReset par k 0 [] [] := by
  obtain ⟨k, hk, rfl⟩ := List.mem_mapIdx.mp h
  exact ⟨ps[k], k, List.getElem_mem hk, rfl⟩

theorem Params.admitted_of_mem {ps : List Params} {par : Params} (h : Params.systemAdmitted ps = true)
    (hm : par ∈ ps) : par.admitted = true := by
  simp only [Params.systemAdmitted, Bool.and_eq_true, List.all_eq_true] at h
  exact h.2 par hm

/-- Everything a step of a system can do when it answers a next system. -/
theorem System.step_cases {S T : System} {k : Nat} (h : System.step S k = .next T) :
    ∃ s t, S[k]? = some s ∧ Machine.step s = .next t ∧ T = S.set k t := by
  unfold System.step at h
  cases hs : S[k]? with
  | none => simp [hs] at h
  | some s =>
    cases ht : Machine.step s with
    | next t => exact ⟨s, t, rfl, ht, by simpa [hs, ht] using h.symm⟩
    | fault f => simp [hs, ht] at h
    | refused r => simp [hs, ht] at h

end Sys2Proof.Machine
end

