-- ==== Sys2Proof/Laws/PerInstr.lean ====
section
/-! SUPPORT. What is said of every instruction one by one: the word an instruction is encoded as lies in its own row of the
opcode map, has its reserved bits 0, and the instruction is well formed (30_encoding.md R80, R83). -/

namespace Sys2Proof.Laws.EncodeRow

open Sys2Proof

/-- The statement about one instruction. -/
def Statement (i : Instr) : Prop :=
  rowOf i ∈ opcodeMap ∧ (rowOf i).selects (encode i) = true ∧ reservedField (encode i) = 0#25 ∧ i.wellFormed = true

theorem b32encF (v : Variant) : Statement (.b32encF v) := by cases v <;> (unfold Statement; decide)

theorem b32encI (v : Variant) : Statement (.b32encI v) := by cases v <;> (unfold Statement; decide)

theorem b32encC (v : Variant) : Statement (.b32encC v) := by cases v <;> (unfold Statement; decide)

theorem b32decF (v : Variant) : Statement (.b32decF v) := by cases v <;> (unfold Statement; decide)

theorem b32decI (v : Variant) : Statement (.b32decI v) := by cases v <;> (unfold Statement; decide)

theorem b32decC (v : Variant) : Statement (.b32decC v) := by cases v <;> (unfold Statement; decide)

theorem htrunc : Statement .htrunc := by unfold Statement; decide

theorem hfmt : Statement .hfmt := by unfold Statement; decide

theorem hcode : Statement .hcode := by unfold Statement; decide

theorem cfgbuild : Statement .cfgbuild := by unfold Statement; decide

end Sys2Proof.Laws.EncodeRow
end

