-- ==== Sys2Proof/Tests/Slice0.lean ====
section
/-! SUPPORT. The model's own tests. Expected values are those of spec/95_test_vectors.md (the section is named at each
test). The second half shows, for every statement with hypotheses, a concrete case that meets them all together. -/

namespace Sys2Proof.Tests

open Sys2Proof
open Sys2Proof.Machine

/-! ## Small states -/

/-- Whether an outcome is a next state with a property. -/
def onNext (o : Host.Outcome State Fault Refusal) (p : State → Bool) : Bool :=
  match o with
  | .next t => p t
  | .fault _ => false
  | .refused _ => false

/-- Whether an outcome is a refusal. -/
def onRefused (o : Host.Outcome State Fault Refusal) : Bool :=
  match o with
  | .next _ => false
  | .fault _ => false
  | .refused _ => true

theorem exists_of_onNext {o : Host.Outcome State Fault Refusal} {p : State → Bool} (h : onNext o p = true) :
    ∃ t, o = .next t ∧ p t = true := by
  cases o with
  | next t => exact ⟨t, rfl, h⟩
  | fault r => cases h
  | refused r => cases h

/-- The reset state with IN loaded and the range set on all of it, as `input hex:…` leaves it (R95); OUT_CAP is `cap`. -/
def withInput (bytes : List Byte) (cap : Nat) : State :=
  { State.reset with
    inp := ⟨Memory.writeList [] 0 bytes, 0⟩, inLimit := BitVec.ofNat 32 bytes.length, outCap := BitVec.ofNat 32 cap }

/-- The reset state with a hash loaded, as `hash hex:…` leaves it, and a configuration committed (R95, R88). -/
def withHash (bytes : List Byte) (digits offset : Int) (ck : BitVec 1) : State :=
  { State.reset with
    hash := ⟨Memory.writeList [] 0 bytes, 0⟩, hashLen := BitVec.ofNat 32 bytes.length, cfg := packCfg digits offset ck }

/-- The reset state with a staged configuration (R34 to R36). -/
def withStaged (digits offset : Int) (ck : BitVec 1) : State :=
  { State.reset with
    cfgDigitsIn := BitVec.ofInt 32 digits, cfgOffsetIn := BitVec.ofInt 32 offset, cfgChecksumIn := ck }

/-- A state whose next event is a port operation. -/
def issuing (s : State) (o : PortOp) : State := { s with port := [.op o] }

/-- The text "foobar". -/
def foobar : List Byte := [0x66#8, 0x6F#8, 0x6F#8, 0x62#8, 0x61#8, 0x72#8]

/-- The text "MZXW6YTBOI======". -/
def foobarText : List Byte :=
  [0x4D#8, 0x5A#8, 0x58#8, 0x57#8, 0x36#8, 0x59#8, 0x54#8, 0x42#8, 0x4F#8, 0x49#8] ++ List.replicate 6 0x3D#8

/-- The counter-0 and counter-1 tags of table T1. -/
def tag0 : List Byte :=
  [0xCC#8, 0x93#8, 0xCF#8, 0x18#8, 0x50#8, 0x8D#8, 0x94#8, 0x93#8, 0x4C#8, 0x64#8] ++
    [0xB6#8, 0x5D#8, 0x8B#8, 0xA7#8, 0x66#8, 0x7F#8, 0xB7#8, 0xCD#8, 0xE4#8, 0xB0#8]

def tag1 : List Byte :=
  [0x75#8, 0xA4#8, 0x8A#8, 0x19#8, 0xD4#8, 0xCB#8, 0xE1#8, 0x00#8, 0x64#8, 0x4E#8] ++
    [0x8A#8, 0xC1#8, 0x39#8, 0x7E#8, 0xEA#8, 0x74#8, 0x7A#8, 0x2D#8, 0x33#8, 0xAB#8]

/-! ## Well-formedness: one ill-formed term for each check -/

theorem test_params_admitted : Params.admitted ⟨16, 2 ^ 32 - 1⟩ = true := by decide
theorem test_params_in_too_small : Params.admitted ⟨15, 16⟩ = false := by decide
theorem test_params_in_too_large : Params.admitted ⟨2 ^ 32, 16⟩ = false := by decide
theorem test_params_out_too_small : Params.admitted ⟨16, 15⟩ = false := by decide
theorem test_params_out_too_large : Params.admitted ⟨16, 2 ^ 32⟩ = false := by decide
theorem test_system_of_none : Params.systemAdmitted [] = false := by decide
theorem test_system_ill_sized : Params.systemAdmitted [⟨16, 16⟩, ⟨15, 16⟩] = false := by decide
theorem test_bufWrite_beyond : (PortOp.bufWrite .hash 64 0#8).admitted ⟨64, 64⟩ = false := by decide
theorem test_bufRead_beyond : (PortOp.bufRead .out 64).admitted ⟨64, 64⟩ = false := by decide
theorem test_event_beyond : (Event.op (.bufRead .inp 16)).admitted ⟨16, 64⟩ = false := by decide
theorem test_reserved_index_admitted : (PortOp.regWrite 1000#32 1#32).admitted ⟨64, 64⟩ = true := by decide
theorem test_beyond_is_refused : onRefused (step (issuing State.reset (.bufRead .out 64))) = true := by decide

/-! ## Decoding: the words of 30_encoding.md R83, written from its columns (bits 31:7, SHAPE, VAR, OP) -/

theorem test_decode_b32encF :
    decodeCmd (0#25 ++ 0b00#2 ++ 0#1 ++ 0b0001#4) = .ok (.b32encF .std) ∧
      decodeCmd (0#25 ++ 0b00#2 ++ 1#1 ++ 0b0001#4) = .ok (.b32encF .hex) := ⟨rfl, rfl⟩
theorem test_decode_b32encI :
    decodeCmd (0#25 ++ 0b01#2 ++ 0#1 ++ 0b0001#4) = .ok (.b32encI .std) ∧
      decodeCmd (0#25 ++ 0b01#2 ++ 1#1 ++ 0b0001#4) = .ok (.b32encI .hex) := ⟨rfl, rfl⟩
theorem test_decode_b32encC :
    decodeCmd (0#25 ++ 0b10#2 ++ 0#1 ++ 0b0001#4) = .ok (.b32encC .std) ∧
      decodeCmd (0#25 ++ 0b10#2 ++ 1#1 ++ 0b0001#4) = .ok (.b32encC .hex) := ⟨rfl, rfl⟩
theorem test_decode_b32decF :
    decodeCmd (0#25 ++ 0b00#2 ++ 0#1 ++ 0b0010#4) = .ok (.b32decF .std) ∧
      decodeCmd (0#25 ++ 0b00#2 ++ 1#1 ++ 0b0010#4) = .ok (.b32decF .hex) := ⟨rfl, rfl⟩
theorem test_decode_b32decI :
    decodeCmd (0#25 ++ 0b01#2 ++ 0#1 ++ 0b0010#4) = .ok (.b32decI .std) ∧
      decodeCmd (0#25 ++ 0b01#2 ++ 1#1 ++ 0b0010#4) = .ok (.b32decI .hex) := ⟨rfl, rfl⟩
theorem test_decode_b32decC :
    decodeCmd (0#25 ++ 0b10#2 ++ 0#1 ++ 0b0010#4) = .ok (.b32decC .std) ∧
      decodeCmd (0#25 ++ 0b10#2 ++ 1#1 ++ 0b0010#4) = .ok (.b32decC .hex) := ⟨rfl, rfl⟩
theorem test_decode_hotp :
    decodeCmd (0#25 ++ 0b00#2 ++ 0#1 ++ 0b0011#4) = .ok .htrunc ∧
      decodeCmd (0#25 ++ 0b00#2 ++ 0#1 ++ 0b0100#4) = .ok .hfmt ∧
      decodeCmd (0#25 ++ 0b00#2 ++ 0#1 ++ 0b0101#4) = .ok .hcode := ⟨rfl, rfl, rfl⟩
theorem test_decode_cfgbuild : decodeCmd (0#25 ++ 0b00#2 ++ 0#1 ++ 0b0110#4) = .ok .cfgbuild := rfl

/-- Section 8: the illegal words of its table. -/
theorem test_decode_illegal :
    [0x0#32, 0x7#32, 0xF#32, 0x61#32, 0x71#32, 0x62#32, 0x13#32, 0x23#32, 0x14#32, 0x45#32, 0x16#32, 0x26#32, 0x81#32,
      0x101#32, 0x80000001#32, 0xFFFFFFFF#32, 0x10#32, 0x20#32].all
      (fun w => (decodeCmd w).toOption.isNone && onNext (step (State.reset.withFetchWord 32 w.toNat))
        fun t => t.status == 0xE1#8 && t.einfo == 0#32 && t.outLen == 0#32) = true := by decide +kernel

/-- Section 8: STATUS after each legal word as the first command after reset. -/
theorem test_first_command_after_reset :
    [(0x01, 0x80#8), (0x11, 0x80#8), (0x21, 0x80#8), (0x31, 0x80#8), (0x41, 0x80#8), (0x51, 0x80#8), (0x02, 0x80#8),
      (0x12, 0x80#8), (0x22, 0x80#8), (0x32, 0x80#8), (0x42, 0x80#8), (0x52, 0x80#8), (0x03, 0xE9#8), (0x04, 0xE9#8),
      (0x05, 0xE9#8), (0x06, 0x98#8)].all
      (fun p => (decodeTableWord 32 p.1).isSome && onNext (step (State.reset.withFetchWord 32 p.1))
        fun t => t.status == p.2 && t.outLen == 0#32) = true := by decide +kernel

/-! ## The tables -/

/-- 10_state.md R43: A to Z, then 2 to 7. -/
theorem test_standard_alphabet :
    (List.range 32).map (fun k => alpha .std (BitVec.ofNat 5 k)) =
      asciiBytes ['A', 'B', 'C', 'D', 'E', 'F', 'G', 'H', 'I', 'J', 'K', 'L', 'M', 'N', 'O', 'P'] ++
      asciiBytes ['Q', 'R', 'S', 'T', 'U', 'V', 'W', 'X', 'Y', 'Z', '2', '3', '4', '5', '6', '7'] := by decide +kernel

/-- 10_state.md R44: 0 to 9, then A to V. -/
theorem test_hex_alphabet :
    (List.range 32).map (fun k => alpha .hex (BitVec.ofNat 5 k)) =
      asciiBytes ['0', '1', '2', '3', '4', '5', '6', '7', '8', '9', 'A', 'B', 'C', 'D', 'E', 'F'] ++
      asciiBytes ['G', 'H', 'I', 'J', 'K', 'L', 'M', 'N', 'O', 'P', 'Q', 'R', 'S', 'T', 'U', 'V'] := by decide +kernel

/-- 10_state.md R46: some illegal bytes. -/
theorem test_inverse_illegal :
    inv .std 0x61#8 = .ill ∧ inv .std 0x31#8 = .ill ∧ inv .std 0x38#8 = .ill ∧ inv .hex 0x57#8 = .ill ∧
      inv .hex 0x3D#8 = .pad := by decide

/-- 10_state.md R47: the table as printed, and that it is the digit sum of the double. -/
theorem test_double_digits :
    (List.range 10).map doubleDigits = [0, 2, 4, 6, 8, 1, 3, 5, 7, 9] ∧
      (List.range 10).map doubleDigits = (List.range 10).map fun d => 2 * d / 10 + 2 * d % 10 := by decide

/-- Table F1 of section 5. -/
theorem test_checksums :
    [(755224, 6, 3), (0, 6, 0), (1, 6, 8), (5, 6, 9), (9, 6, 1), (90, 6, 1), (50, 6, 5), (123456, 6, 6), (999999, 6, 6),
      (4287082, 7, 4), (9999999, 7, 7), (12345678, 8, 2), (94287082, 8, 5), (99999999, 8, 8)].all
      (fun r => checksum r.1 r.2.1 == r.2.2) = true := by decide +kernel

/-! ## One step of each command -/

/-- Table E1: "foobar", Standard. -/
theorem test_b32encF_foobar :
    onNext (exec (.b32encF .std) (withInput foobar 0))
      (fun t => t.status == 0x80#8 && t.outLen == 16#32 && t.inPos == 0#32 && t.bytesAt .out 0 16 == foobarText) =
      true := by decide +kernel

/-- Table E1: ff ff ff in Extended-Hex is VVVVU===. -/
theorem test_b32encF_hex :
    onNext (exec (.b32encF .hex) (withInput [0xFF#8, 0xFF#8, 0xFF#8] 0))
      (fun t => t.bytesAt .out 0 8 == [0x56#8, 0x56#8, 0x56#8, 0x56#8, 0x55#8, 0x3D#8, 0x3D#8, 0x3D#8]) = true := by
  decide +kernel

/-- Table E2: OUT_CAP 16 is enough for "foobar". -/
theorem test_b32encI_fits :
    onNext (exec (.b32encI .std) (withInput foobar 16))
      (fun t => t.status == 0x80#8 && t.bytesAt .out 0 16 == foobarText) = true := by decide +kernel

/-- Table E2: OUT_CAP 15 is not. -/
theorem test_b32encI_too_small :
    onNext (exec (.b32encI .std) (withInput foobar 15))
      (fun t => t.status == 0xD4#8 && t.einfo == 0#32 && t.outLen == 0#32) = true := by decide +kernel

/-- Table E2: "bar" at offset 3, Extended-Hex, cursor form: C9GN4===, IN_POS 6. -/
theorem test_b32encC_cursor :
    onNext (exec (.b32encC .hex) { withInput foobar 0 with inPos := 3#32 })
      (fun t => t.inPos == 6#32 && t.outLen == 8#32 &&
        t.bytesAt .out 0 8 == [0x43#8, 0x39#8, 0x47#8, 0x4E#8, 0x34#8, 0x3D#8, 0x3D#8, 0x3D#8]) = true := by
  decide +kernel

/-- Table E2: 41 bytes need 72 of the 64 bytes of OUT; IN_POS stays. -/
theorem test_b32encC_no_room :
    onNext (exec (.b32encC .std) { withInput foobar 0 with inLimit := 41#32 })
      (fun t => t.status == 0xD3#8 && t.inPos == 0#32 && t.outLen == 0#32) = true := by decide +kernel

/-- Table D1: the unpadded text MZXW6YTBOI. -/
theorem test_b32decF_unpadded :
    onNext (exec (.b32decF .std) (withInput (foobarText.take 10) 0))
      (fun t => t.status == 0x80#8 && t.outLen == 6#32 && t.bytesAt .out 0 6 == foobar) = true := by decide +kernel

/-- Table D2: five pads instead of six. -/
theorem test_b32decF_five_pads :
    onNext (exec (.b32decF .std) (withInput (foobarText.take 15) 0))
      (fun t => t.status == 0xC6#8 && t.outLen == 0#32) = true := by decide +kernel

/-- Table D3: OUT_CAP 5 is too small for "foobar". -/
theorem test_b32decI_too_small :
    onNext (exec (.b32decI .std) (withInput foobarText 5)) (fun t => t.status == 0xC4#8 && t.outLen == 0#32) = true := by
  decide +kernel

/-- Table D3: Standard text read as Extended-Hex: Z at index 1 is illegal, reported before the capacity. -/
theorem test_b32decI_illegal :
    onNext (exec (.b32decI .hex) (withInput foobarText 0)) (fun t => t.status == 0xC5#8 && t.einfo == 1#32) = true := by
  decide +kernel

/-- Table D3: the cursor form on OI====== at offset 8: "r", IN_POS 16. -/
theorem test_b32decC_cursor :
    onNext (exec (.b32decC .std) { withInput foobarText 0 with inPos := 8#32 })
      (fun t => t.status == 0x80#8 && t.inPos == 16#32 && t.outLen == 1#32 && t.byteAt .out 0 == 0x72#8) = true := by
  decide +kernel

/-- Table D2: nine symbols; the cursor stays. -/
theorem test_b32decC_last_unit :
    onNext (exec (.b32decC .std) (withInput (foobarText.take 9) 0))
      (fun t => t.status == 0xC7#8 && t.inPos == 0#32) = true := by decide +kernel

/-- Table T1, counter 1: dynamic offset 11. -/
theorem test_htrunc_dynamic :
    onNext (exec .htrunc (withHash tag1 6 (-1) 0#1))
      (fun t => t.status == 0x80#8 && t.toff == 11#4 && t.bin == 1094287082#31 && t.outLen == 0#32) = true := by
  decide +kernel

/-- Table T2: 16 bytes ff, configured offset 12: falls to the dynamic nibble 15, which does not fit. -/
theorem test_htrunc_outside :
    onNext (exec .htrunc (withHash (List.replicate 16 0xFF#8) 6 12 0#1))
      (fun t => t.status == 0xEA#8 && t.einfo == 15#32 && t.bin == 0#31) = true := by decide +kernel

/-- Table F2: 1000042, 6 digits, checksum: 0000422. -/
theorem test_hfmt_leading_zeros :
    onNext (exec .hfmt { withHash [] 6 (-1) 1#1 with bin := 1000042#31 })
      (fun t => t.code == 42#32 && t.outLen == 7#32 &&
        t.bytesAt .out 0 7 == [0x30#8, 0x30#8, 0x30#8, 0x30#8, 0x34#8, 0x32#8, 0x32#8]) = true := by decide +kernel

/-- Table F2: 0x7fffffff, 8 digits, checksum: 474836475. -/
theorem test_hfmt_eight_digits :
    onNext (exec .hfmt { withHash [] 8 (-1) 1#1 with bin := 0x7FFFFFFF#31 })
      (fun t => t.code == 47483647#32 &&
        t.bytesAt .out 0 9 == [0x34#8, 0x37#8, 0x34#8, 0x38#8, 0x33#8, 0x36#8, 0x34#8, 0x37#8, 0x35#8]) = true := by
  decide +kernel

/-- Table H1, counter 0: 755224. -/
theorem test_hcode_counter0 :
    onNext (exec .hcode (withHash tag0 6 (-1) 0#1))
      (fun t => t.status == 0x80#8 && t.code == 755224#32 && t.bin == 1284755224#31 &&
        t.bytesAt .out 0 6 == [0x37#8, 0x35#8, 0x35#8, 0x32#8, 0x32#8, 0x34#8]) = true := by decide +kernel

/-- Table H1, counter 1, 8 digits and checksum: 942870825. -/
theorem test_hcode_counter1_checksum :
    onNext (exec .hcode (withHash tag1 8 (-1) 1#1))
      (fun t => t.outLen == 9#32 && t.toff == 11#4 &&
        t.bytesAt .out 0 9 == [0x39#8, 0x34#8, 0x32#8, 0x38#8, 0x37#8, 0x30#8, 0x38#8, 0x32#8, 0x35#8]) = true := by
  decide +kernel

/-- Section 7: (6, -1, 1) gives 0x800003F6. -/
theorem test_cfgbuild_packs :
    onNext (exec .cfgbuild (withStaged 6 (-1) 1#1)) (fun t => t.status == 0x80#8 && t.cfg == 0x800003F6#32) = true := by
  decide +kernel

/-- Section 7: offset -2147483648 fails with EINFO 2 and leaves CFG. -/
theorem test_cfgbuild_offset :
    onNext (exec .cfgbuild (withStaged 6 (-2147483648) 0#1))
      (fun t => t.status == 0x98#8 && t.einfo == 2#32 && t.cfg == 0#32) = true := by decide +kernel

/-- Program P6, lines 22 and 23: BIN keeps 31 bits of a host write. -/
theorem test_port_bin_31_bits :
    onNext (step (issuing State.reset (.regWrite 8#32 0xFFFFFFFF#32))) (fun t => t.reg .bin == 0x7FFFFFFF#32) = true := by
  decide +kernel

/-- A script line and the port operations it stands for (30_encoding.md R94, R95). -/
theorem test_script_input :
    linesInput [0x66#8] = [.bufWrite .inp 0 0x66#8, .regWrite 3#32 0#32, .regWrite 4#32 1#32] ∧
      lineCmd (.b32encF .hex) = .regWrite 0#32 0x11#32 ∧ lineWr .cfgOffsetIn (-1) = .regWrite 12#32 0xFFFFFFFF#32 := by
  decide +kernel

/-! ## Witnesses: for each statement with hypotheses, a case that meets them all -/

theorem witness_StepRunsTheDecodedCommand :
    (issuing State.reset (.regWrite 0#32 6#32)).port = [.op (.regWrite 0#32 6#32)] ∧
      decodeCmd 6#32 = .ok .cfgbuild := ⟨rfl, rfl⟩

theorem witness_IllegalWord :
    (issuing State.reset (.regWrite 0#32 7#32)).port = [.op (.regWrite 0#32 7#32)] ∧ ∀ i, 7#32 ≠ encode i := by
  refine ⟨rfl, fun i => ?_⟩
  cases i <;> first | decide | (rename_i v; cases v <;> decide)

theorem witness_ReservedIndices :
    15 ≤ (15#32).toNat ∧ 15 ≤ (0xFFFFFFFF#32).toNat ∧
      (issuing State.reset (.regWrite 15#32 1#32)).port = [.op (.regWrite 15#32 1#32)] ∧
      (issuing State.reset (.regRead 0xFFFFFFFF#32)).port = [.op (.regRead 0xFFFFFFFF#32)] := by decide

theorem witness_HostWrite :
    (issuing State.reset (.regWrite (regIdx .bin) 5#32)).port = [.op (.regWrite (regIdx .bin) 5#32)] ∧
      (issuing State.reset (.regWrite (regIdx .cfg) 5#32)).port = [.op (.regWrite (regIdx .cfg) 5#32)] ∧
      Reg.bin ∈ [Reg.inPos, .inLimit, .outCap, .hashLen, .bin, .cfgDigitsIn, .cfgOffsetIn, .cfgChecksumIn] ∧
      Reg.cfg ∈ [Reg.status, .einfo, .outLen, .toff, .code, .cfg] := by decide

theorem witness_RegisterRead :
    (issuing State.reset (.regRead (regIdx .code))).port = [.op (.regRead (regIdx .code))] := rfl

theorem witness_BufferWrite :
    (issuing State.reset (.bufWrite .inp 63 1#8)).port = [.op (.bufWrite .inp 63 1#8)] ∧
      63 < State.reset.par.size .inp ∧ 63 < State.reset.par.size .hash ∧ 63 < State.reset.par.size .out := by decide

theorem witness_BufferRead :
    (issuing State.reset (.bufRead .hash 63)).port = [.op (.bufRead .hash 63)] ∧ 63 < State.reset.par.size .hash := by
  decide

theorem witness_OnlyOffsets :
    onRefused (step (issuing State.reset (.bufWrite .hash 64 0#8))) = true ∧
      onNext (step (issuing State.reset (.bufWrite .hash 63 0#8))) (fun _ => true) = true := by decide

theorem witness_EventsInOrder :
    ∃ t, step (issuing State.reset (.regRead 1#32)) = .next t ∧ (t.trace == [ReadValue.reg 0#32]) = true :=
  exists_of_onNext (by decide +kernel)

theorem witness_Reset : ({ State.reset with port := [.reset] } : State).port = [.reset] := rfl

theorem witness_CommandsStraightAfterReset :
    (∃ i, isBase32 i = true) ∧ ∃ t, exec .cfgbuild State.reset = .next t ∧ (t.status == 0x98#8) = true :=
  ⟨⟨.b32encF .std, rfl⟩, exists_of_onNext (by decide +kernel)⟩

/-- The ends of the lowercase letters, and one byte of each list. -/
theorem witness_InverseTable :
    0x61 ≤ (0x61#8 : Byte).toNat ∧ (0x7A#8 : Byte).toNat ≤ 0x7A ∧ (0x39#8 : Byte) ∈ [0x30#8, 0x31#8, 0x38#8, 0x39#8] ∧
      (0x57#8 : Byte) ∈ [0x57#8, 0x58#8, 0x59#8, 0x5A#8] := by decide

theorem witness_GroupsAndTails : 5 ∣ ([] : List Byte).length ∧ 5 ∣ (foobar.take 5).length := by decide

/-- Empty, and exactly filling OUT: 40 bytes give 64 symbols. -/
theorem witness_EncodeFreshAndCursor :
    (withInput [] 0).par.admitted = true ∧ RangeOk (withInput [] 0) ∧
      RangeOk (withInput (List.replicate 40 0#8) 0) ∧
      encLen ((withInput (List.replicate 40 0#8) 0).inLimit.toNat - (withInput (List.replicate 40 0#8) 0).inPos.toNat) =
        (withInput (List.replicate 40 0#8) 0).par.outSize := by
  unfold RangeOk
  decide +kernel

/-- OUT_CAP exactly the length, and OUT_CAP exactly OUT_SIZE. -/
theorem witness_EncodeInto :
    RangeOk (withInput foobar 16) ∧ (withInput foobar 16).outCap.toNat ≤ (withInput foobar 16).par.outSize ∧
      encLen ((withInput foobar 16).inLimit.toNat - (withInput foobar 16).inPos.toNat) =
        (withInput foobar 16).outCap.toNat ∧ (withInput foobar 64).outCap.toNat = (withInput foobar 64).par.outSize := by
  unfold RangeOk
  decide +kernel

/-- A state whose range has one byte more than the overflow guard lets pass. -/
def guarded : State := { State.reset with par := ⟨2 ^ 32 - 1, 64⟩, inLimit := 2684354556#32 }

theorem witness_EncodeOverflowGuard :
    RangeOk guarded ∧ 2684354555 < guarded.inLimit.toNat - guarded.inPos.toNat ∧
      guarded.outCap.toNat ≤ guarded.par.outSize ∧ encLen 2684354555 ≤ 2 ^ 32 - 1 := by
  unfold RangeOk
  decide +kernel

/-- Both capacities one short of the text. -/
theorem witness_EncodeWithoutRoom :
    let s : State := { withInput foobar 15 with par := ⟨16, 15⟩ }
    RangeOk s ∧ s.par.outSize < encLen (s.inLimit.toNat - s.inPos.toNat) ∧ s.outCap.toNat ≤ s.par.outSize ∧
      s.outCap.toNat < encLen (s.inLimit.toNat - s.inPos.toNat) ∧
      encLen (s.inLimit.toNat - s.inPos.toNat) < 2 ^ 32 := by
  unfold RangeOk
  decide +kernel

theorem witness_EncodeShapesAgree :
    (∃ t, exec (.b32encF .std) (withInput foobar 16) = .next t ∧ (t.status == 0x80#8) = true) ∧
      (∃ t, exec (.b32encI .std) (withInput foobar 16) = .next t ∧ (t.status == 0x80#8) = true) ∧
      ∃ t, exec (.b32encC .std) (withInput foobar 16) = .next t ∧ (t.status == 0x80#8) = true :=
  ⟨exists_of_onNext (by decide +kernel), exists_of_onNext (by decide +kernel), exists_of_onNext (by decide +kernel)⟩

/-- Each range check failing alone, at its boundary. -/
theorem witness_Base32RangeErrors :
    isBase32 (.b32decI .hex) = true ∧
      (let s : State := { State.reset with inPos := 1#32 }; s.inLimit.toNat < s.inPos.toNat) ∧
      (let s : State := { State.reset with inLimit := 65#32 }
      s.inPos.toNat ≤ s.inLimit.toNat ∧ s.par.inSize < s.inLimit.toNat) ∧
      (let s : State := { State.reset with outCap := 65#32 }; RangeOk s ∧ s.par.outSize < s.outCap.toNat) := by
  unfold RangeOk
  decide

/-- First pads: none, in the middle, and at the very start. -/
theorem witness_FirstPad : IsFirstPad foobar 6 ∧ IsFirstPad foobarText 10 ∧ IsFirstPad [0x3D#8] 0 := by
  unfold IsFirstPad
  decide +kernel

/-- M! has its illegal byte at index 1. -/
theorem witness_FirstIllegal :
    IsFirstPad [0x4D#8, 0x21#8] 2 ∧ decodeCore .std [0x4D#8, 0x21#8] = .err .illchar 1 ∧
      RangeOk (withInput [0x4D#8, 0x21#8] 0) ∧
      (withInput [0x4D#8, 0x21#8] 0).outCap.toNat ≤ (withInput [0x4D#8, 0x21#8] 0).par.outSize ∧
      decodeCore .std (inputOf (withInput [0x4D#8, 0x21#8] 0)) = .err .illchar 1 := by
  unfold IsFirstPad RangeOk inputOf
  decide +kernel

/-- One text for each clause: a pad at a group's start; too few pads; a symbol after a pad; three symbols; one symbol. -/
theorem witness_StructuralErrors :
    (IsFirstPad [0x3D#8] 0 ∧ 0 % 8 ∉ [2, 4, 5, 7]) ∧
      (IsFirstPad [0x4D#8, 0x59#8, 0x3D#8] 2 ∧ 2 % 8 ∈ [2, 4, 5, 7] ∧ 3 ≠ 2 + (8 - 2 % 8)) ∧
      (IsFirstPad ([0x4D#8, 0x59#8, 0x3D#8, 0x41#8] ++ List.replicate 4 0x3D#8) 2 ∧
        ([0x4D#8, 0x59#8, 0x3D#8, 0x41#8] ++ List.replicate 4 0x3D#8).getD 3 0#8 ≠ padByte) ∧
      (IsFirstPad [0x4D#8, 0x5A#8, 0x58#8] 3 ∧ 3 % 8 ∈ [3, 6]) ∧ (IsFirstPad [0x4D#8] 1 ∧ 1 % 8 = 1) ∧
      ∀ i, i < 3 → inv .std ([0x4D#8, 0x5A#8, 0x58#8].getD i 0#8) ≠ .ill := by
  unfold IsFirstPad
  decide +kernel

/-- A padded text of whole groups, and an unpadded one. -/
theorem witness_DecodedLength :
    IsFirstPad foobarText 10 ∧ decodeCore .std foobarText = .ok foobar ∧ 8 ∣ foobarText.length ∧
      IsFirstPad (foobarText.take 10) 10 ∧ decodeCore .std (foobarText.take 10) = .ok foobar := by
  unfold IsFirstPad
  decide +kernel

theorem witness_FullGroupDecodes :
    8 ∣ ([] : List (BitVec 5)).length ∧ 8 ∣ (List.replicate 8 (3#5)).length ∧
      decodeCore .hex [] = .ok [] ∧ decodeCore .std (foobarText.drop 8) = .ok [0x72#8] := by decide +kernel

/-- MZ, bare and with its six pads, decodes to "f": the low bits of Z are ignored (R141). -/
theorem witness_TailDecodes :
    0 ∈ [0, 6] ∧ 6 ∈ [0, 6] ∧ 4 ∈ [0, 4] ∧ 3 ∈ [0, 3] ∧ 1 ∈ [0, 1] ∧
      decodeCore .std ([0x4D#8, 0x5A#8] ++ List.replicate 6 padByte) = .ok [0x66#8] := by decide +kernel

/-- "foobar" in all three shapes, OUT_CAP exactly 6. -/
theorem witness_DecodeDelivers :
    RangeOk (withInput foobarText 6) ∧ (withInput foobarText 6).outCap.toNat ≤ (withInput foobarText 6).par.outSize ∧
      decodeCore .std (inputOf (withInput foobarText 6)) = .ok foobar ∧
      foobar.length = (withInput foobarText 6).outCap.toNat ∧
      foobar.length ≤ (withInput foobarText 6).par.outSize := by
  unfold RangeOk inputOf
  decide +kernel

/-- Each clause: a wrong ending, a single symbol, an accepted text one byte too long for OUT and for OUT_CAP. -/
theorem witness_DecodeFailures :
    (RangeOk (withInput (foobarText.take 15) 0) ∧
      decodeCore .std (inputOf (withInput (foobarText.take 15) 0)) = .err .endunit 0) ∧
      (RangeOk (withInput (foobarText.take 9) 0) ∧
        decodeCore .std (inputOf (withInput (foobarText.take 9) 0)) = .err .lastunit 0) ∧
      (let s : State := { withInput foobarText 5 with par := ⟨16, 5⟩ }
      RangeOk s ∧ s.outCap.toNat ≤ s.par.outSize ∧ decodeCore .std (inputOf s) = .ok foobar ∧
        s.par.outSize < foobar.length ∧ s.outCap.toNat < foobar.length) := by
  unfold RangeOk inputOf
  decide +kernel

/-- The half-open bound at 16 bytes: 11 is fixed, 12 is not; and a hash of one byte. -/
theorem witness_SelectedOffset :
    ((0 : Int) ≤ 11 ∧ (11 : Int) < ((List.replicate 16 0#8 : List Byte).length : Int) - 4) ∧
      ¬((12 : Int) < ((List.replicate 16 0#8 : List Byte).length : Int) - 4) ∧ 1 ≤ ([0#8] : List Byte).length ∧
      19 ≤ (List.replicate 19 0#8 : List Byte).length ∧ 20 ≤ tag0.length := by decide

theorem witness_Extraction :
    tag0[0]? = some 0xCC#8 ∧ tag0[1]? = some 0x93#8 ∧ tag0[2]? = some 0xCF#8 ∧ tag0[3]? = some 0x18#8 := by decide

/-- A dynamic offset on 20 bytes, and a window that is the whole hash. -/
theorem witness_TruncationOk :
    TruncationOk (withHash tag1 6 (-1) 0#1) ∧
      TruncationOk (withHash [0x10#8, 0x20#8, 0x30#8, 0x40#8] 6 0 0#1) := by
  unfold TruncationOk hashOf
  decide +kernel

/-- The numbers of digits at both ends, and those of the code that one more digit extends. -/
theorem witness_DecimalRenderingAndMoreDigits : (6 ≤ 6 ∧ 6 ≤ 8) ∧ (6 ≤ 8 ∧ 8 ≤ 8) ∧ (6 ≤ 7 ∧ 7 ≤ 7) := by decide

theorem witness_HfmtAndHcode :
    (withHash tag1 6 (-1) 0#1).par.admitted = true ∧ cfgLegal (withHash tag1 6 (-1) 0#1).cfg = true ∧
      cfgValid (withHash tag1 6 (-1) 0#1).cfg = true ∧ cfgLegal (withHash tag1 8 15 1#1).cfg = true := by
  decide +kernel

theorem witness_HcodeIsHtruncThenHfmt :
    (∃ u, exec .hcode (withHash tag0 6 (-1) 0#1) = .next u ∧ (u.status == 0x80#8) = true) ∧
      ∃ t, exec .htrunc (withHash tag0 6 (-1) 0#1) = .next t ∧ (t.status == 0x80#8) = true :=
  ⟨exists_of_onNext (by decide +kernel), exists_of_onNext (by decide +kernel)⟩

/-- No configuration; hash lengths 0 and 65; a window past a hash of 3 bytes. -/
theorem witness_TruncationErrors :
    cfgValid State.reset.cfg = false ∧ (withHash [] 6 (-1) 0#1).hashLen.toNat < 1 ∧
      64 < ({ withHash [] 6 (-1) 0#1 with hashLen := 65#32 } : State).hashLen.toNat ∧
      (let s := withHash [0x10#8, 0x20#8, 0x30#8] 6 (-1) 0#1
      cfgValid s.cfg = true ∧ 1 ≤ s.hashLen.toNat ∧ s.hashLen.toNat ≤ 64 ∧
        s.hashLen.toNat < selectOffset (cfgOffset s.cfg) (hashOf s) + 4) := by
  unfold hashOf
  decide +kernel

/-- Two states that differ outside the operands of HCODE. -/
theorem witness_HotpResults :
    let s := withHash tag0 6 (-1) 0#1
    let s' : State := { s with inPos := 9#32, bin := 1#31 }
    s'.cfg = s.cfg ∧ s'.hashLen = s.hashLen ∧ hashOf s' = hashOf s ∧
      (∃ t, exec .hcode s = .next t ∧ (t.status == 0x80#8) = true) ∧
      ∃ t, exec .hcode s' = .next t ∧ (t.status == 0x80#8) = true :=
  ⟨rfl, rfl, rfl, exists_of_onNext (by decide +kernel), exists_of_onNext (by decide +kernel)⟩

/-- The corners of the legal configurations, and the first values outside them. -/
theorem witness_Cfgbuild :
    (let s := withStaged 6 (-1) 0#1;
      6 ≤ s.cfgDigitsIn.toInt ∧ s.cfgDigitsIn.toInt ≤ 8 ∧ -1 ≤ s.cfgOffsetIn.toInt ∧ s.cfgOffsetIn.toInt ≤ 15) ∧
      (let s := withStaged 8 15 1#1;
      6 ≤ s.cfgDigitsIn.toInt ∧ s.cfgDigitsIn.toInt ≤ 8 ∧ -1 ≤ s.cfgOffsetIn.toInt ∧ s.cfgOffsetIn.toInt ≤ 15) ∧
      (withStaged 5 0 0#1).cfgDigitsIn.toInt < 6 ∧ 8 < (withStaged 9 0 0#1).cfgDigitsIn.toInt ∧
      (let s := withStaged 6 (-2) 0#1;
      6 ≤ s.cfgDigitsIn.toInt ∧ s.cfgDigitsIn.toInt ≤ 8 ∧ s.cfgOffsetIn.toInt < -1) ∧
      (let s := withStaged 8 16 0#1;
      6 ≤ s.cfgDigitsIn.toInt ∧ s.cfgDigitsIn.toInt ≤ 8 ∧ 15 < s.cfgOffsetIn.toInt) := by
  decide +kernel

theorem witness_CfgStaysLegal :
    cfgLegal State.reset.cfg = true ∧
      ∃ t, step ((withStaged 6 (-1) 0#1).withFetchWord 32 6) = .next t ∧ (t.cfg == 0x800003E6#32) = true :=
  ⟨by decide, exists_of_onNext (by decide +kernel)⟩

/-- The three commands without a configuration. -/
theorem witness_NoConfigurationNoCode :
    cfgValid State.reset.cfg = false ∧ Instr.hfmt ∈ [Instr.htrunc, .hfmt, .hcode] := by decide

/-- A failing command that writes OUT, and one that does not. -/
theorem witness_FailureEffect :
    (∃ t, exec .hfmt State.reset = .next t ∧ (statusCode t.status != 0#4) = true) ∧
      ∃ t, exec .htrunc State.reset = .next t ∧ (statusCode t.status != 0#4) = true :=
  ⟨exists_of_onNext (by decide +kernel), exists_of_onNext (by decide +kernel)⟩

/-- A successful cursor command. -/
theorem witness_WriteSetsAndCodes :
    ∃ t, exec (.b32encC .std) (withInput foobar 0) = .next t ∧ (statusCode t.status == 0#4) = true :=
  exists_of_onNext (by decide +kernel)

theorem witness_NoCommandLeaves : State.reset.par.admitted = true := by decide

/-- Another IN that agrees on the range. -/
theorem witness_Base32ReadsOnlyItsRange :
    isBase32 (.b32encF .std) = true ∧
      (∀ off, (withInput foobar 0).inPos.toNat ≤ off → off < (withInput foobar 0).inLimit.toNat →
        ({ withInput foobar 0 with inp := ⟨Memory.writeList [] 0 (foobar ++ [1#8]), 9⟩ } : State).byteAt .inp off =
          (withInput foobar 0).byteAt .inp off) ∧
      ∃ t, exec (.b32encF .std) (withInput foobar 0) = .next t ∧ (t.status == 0x80#8) = true := by
  refine ⟨rfl, fun off _ h => ?_, exists_of_onNext (by decide +kernel)⟩
  have h6 : off < 6 := h
  interval_cases off <;> rfl

/-- A failing command, M followed by an illegal byte, and another IN that agrees on that range. -/
theorem witness_Base32ReadsOnlyItsRange_failing :
    isBase32 (.b32decF .std) = true ∧
      (∀ off, (withInput [0x4D#8, 0x21#8] 0).inPos.toNat ≤ off → off < (withInput [0x4D#8, 0x21#8] 0).inLimit.toNat →
        ({ withInput [0x4D#8, 0x21#8] 0 with inp := ⟨[(0, 0x4D#8), (1, 0x21#8), (2, 1#8)], 9⟩ } : State).byteAt .inp off =
          (withInput [0x4D#8, 0x21#8] 0).byteAt .inp off) ∧
      ∃ t, exec (.b32decF .std) (withInput [0x4D#8, 0x21#8] 0) = .next t ∧ (t.status == 0xC5#8) = true := by
  refine ⟨rfl, fun off _ h => ?_, exists_of_onNext (by decide +kernel)⟩
  have h2 : off < 2 := h
  interval_cases off <;> rfl

/-- A sound state with data in it, and a step from it. -/
theorem witness_StepKeepsSound :
    Sound (withInput foobar 0) ∧
      ∃ t, step ((withInput foobar 0).withFetchWord 32 1) = .next t ∧ (t.outLen == 16#32) = true := by
  refine ⟨?_, exists_of_onNext (by decide +kernel)⟩
  constructor <;> decide

/-- Two instances of different sizes; and one instance, the fewest a system has. -/
theorem witness_ResetIsSound :
    (⟨16, 2 ^ 32 - 1⟩ : Params).admitted = true ∧ Params.systemAdmitted [⟨16, 2 ^ 32 - 1⟩, ⟨64, 16⟩] = true ∧
      Params.systemAdmitted [⟨16, 16⟩] = true := by decide

theorem witness_InstancesShareNothing :
    System.admitted (System.reset [⟨16, 32⟩, ⟨64, 16⟩]) = true ∧
      ∃ T, System.step (System.reset [⟨16, 32⟩, ⟨64, 16⟩]) 1 = .next T := ⟨by decide, _, rfl⟩

end Sys2Proof.Tests
end

section
/-! The statements about the state: the reserved register indices (10_state.md R39), the inverse alphabet table (R46) and
the values CFG may hold (R38). -/

namespace Sys2Proof.Machine

/-! ### The reserved register indices (R39) -/

/-- No register stands at index 15 or above. -/
theorem regOf_eq_none {idx : Word} (h : 15 ≤ idx.toNat) : regOf idx = none := by
  unfold regOf
  split
  case h_16 => rfl
  all_goals omega

theorem regWrite_reserved {idx : Word} (h : 15 ≤ idx.toNat) (s : State) (w : Word) : s.regWrite idx w = s := by
  simp [State.regWrite, regOf_eq_none h]

theorem regRead_reserved {idx : Word} (h : 15 ≤ idx.toNat) (s : State) : s.regRead idx = 0#32 := by
  simp [State.regRead, regOf_eq_none h]

/-- A register write at another index than CMD's runs no command (R60). -/
theorem step_regWrite {s : State} {idx w : Word} {rest : List Event} (hi : idx ≠ 0#32)
    (h : s.port = .op (.regWrite idx w) :: rest) :
    step s = .next (({ s with port := rest } : State).regWrite idx w) := by
  rw [step_takes h]
  exact if_neg hi

theorem step_regRead {s : State} {idx : Word} {rest : List Event} (h : s.port = .op (.regRead idx) :: rest) :
    step s = .next { s with port := rest, trace := s.trace ++ [.reg (s.regRead idx)] } :=
  step_takes h

/-- Settles O6: no register stands at the index, so the write stores nothing and the read gives 0. -/
theorem reservedIndicesReadZeroIgnoreWrites : Obligations.ReservedIndicesReadZeroIgnoreWrites := by
  intro s idx w rest hidx
  refine ⟨fun h => ?_, fun h => ?_⟩
  · have hi : idx ≠ 0#32 := by
      rintro rfl
      simp at hidx
    rw [step_regWrite hi h, regWrite_reserved hidx]
  · rw [step_regRead h, regRead_reserved hidx]

/-! ### The inverse table (R46) -/

theorem inv_eq_pad_iff (v : Variant) (b : Byte) : inv v b = .pad ↔ b = padByte := by
  constructor
  · intro h
    by_contra hb
    cases v <;> simp only [inv, if_neg hb] at h <;> split_ifs at h
  · rintro rfl
    cases v <;> rfl

/-- The index the table computes for a byte of a symbol range gives the byte back, by the closed forms R43 and R44. -/
theorem alpha_of_inv_eq_sym {v : Variant} {b : Byte} {k : BitVec 5} (h : inv v b = .sym k) : alpha v k = b := by
  apply BitVec.eq_of_toNat_eq
  cases v <;> simp only [inv] at h <;> split_ifs at h <;> cases h
  all_goals
    simp only [alpha, BitVec.toNat_ofNat]
    split_ifs <;> simp only [BitVec.toNat_ofNat] <;> omega

theorem inv_eq_sym_iff (v : Variant) (b : Byte) (k : BitVec 5) : inv v b = .sym k ↔ b = alpha v k :=
  ⟨fun h => (alpha_of_inv_eq_sym h).symm, fun h => h ▸ inv_alpha v k⟩

theorem alpha_injective (v : Variant) : Function.Injective (alpha v) := fun j k h =>
  SymClass.sym.inj (by rw [← inv_alpha v j, h, inv_alpha])

/-- Lowercase letters lie above both alphabets and the pad. -/
theorem inv_lowercase (v : Variant) {b : Byte} (h1 : 0x61 ≤ b.toNat) (h2 : b.toNat ≤ 0x7A) : inv v b = .ill := by
  have hp : b ≠ padByte := by
    rintro rfl
    simp [padByte] at h1
  cases v <;> simp only [inv, if_neg hp] <;> rw [if_neg (by omega), if_neg (by omega)]

theorem count_ill (v : Variant) :
    ((List.range 256).filter fun n => inv v (BitVec.ofNat 8 n) == .ill).length = 223 := by
  cases v <;> decide +kernel

theorem count_pad (v : Variant) :
    ((List.range 256).filter fun n => inv v (BitVec.ofNat 8 n) == .pad).length = 1 := by
  cases v <;> decide +kernel

/-- The digits the Standard alphabet leaves out. -/
theorem inv_std_excludedDigits : ∀ b ∈ [0x30#8, 0x31#8, 0x38#8, 0x39#8], inv .std b = .ill := by decide

/-- The letters the Extended-Hex alphabet leaves out. -/
theorem inv_hex_excludedLetters : ∀ b ∈ [0x57#8, 0x58#8, 0x59#8, 0x5A#8], inv .hex b = .ill := by decide

/-- Settles O15: the inverse table and the alphabet are each other's inverse, and the classes are counted byte by byte. -/
theorem inverseTableInvertsTheAlphabet : Obligations.InverseTableInvertsTheAlphabet := fun v =>
  ⟨inv_eq_pad_iff v, inv_eq_sym_iff v, fun _ _ h => alpha_injective v h, alpha_ne_padByte v, count_ill v, count_pad v,
    fun _ => inv_lowercase v, inv_std_excludedDigits, inv_hex_excludedLetters⟩

/-! ### The fields of a built CFG (R37, R88) -/

/-- The bits of a built CFG: DIGITS in 3:0, CHECKSUM in 4, OFFSET in 9:5, bits 30:10 zero, VALID in 31. -/
theorem packCfg_getLsbD (d o : Int) (ck : BitVec 1) (i : Nat) :
    (packCfg d o ck).getLsbD i =
      if i < 4 then (BitVec.ofInt 4 d).getLsbD i
      else if i < 5 then ck.getLsbD (i - 4)
      else if i < 10 then (BitVec.ofInt 5 o).getLsbD (i - 5)
      else if i < 31 then false
      else (1#1).getLsbD (i - 31) := by
  show BitVec.getLsbD (w := 1 + 21 + 5 + 1 + 4) (1#1 ++ 0#21 ++ BitVec.ofInt 5 o ++ ck ++ BitVec.ofInt 4 d) i = _
  have h1 : i - 4 < 1 ↔ i < 5 := by omega
  have h5 : i - 5 < 5 ↔ i < 10 := by omega
  have h21 : i - 10 < 21 ↔ i < 31 := by omega
  simp only [BitVec.getLsbD_append, BitVec.getLsbD_zero, Nat.sub_sub]
  simp only [Nat.reduceAdd, h1, h5, h21]

theorem cfgValid_packCfg (d o : Int) (ck : BitVec 1) : cfgValid (packCfg d o ck) = true :=
  packCfg_getLsbD d o ck 31

theorem reserved_packCfg (d o : Int) (ck : BitVec 1) : (packCfg d o ck).extractLsb' 10 21 = 0#21 := by
  apply BitVec.eq_of_getLsbD_eq
  intro i hi
  rw [BitVec.getLsbD_extractLsb', packCfg_getLsbD, if_neg (by omega), if_neg (by omega), if_neg (by omega),
    if_pos (by omega)]
  simp

theorem digits_packCfg (d o : Int) (ck : BitVec 1) : (packCfg d o ck).extractLsb' 0 4 = BitVec.ofInt 4 d := by
  apply BitVec.eq_of_getLsbD_eq
  intro i hi
  rw [BitVec.getLsbD_extractLsb', packCfg_getLsbD, Nat.zero_add, if_pos hi]
  simp [hi]

theorem offset_packCfg (d o : Int) (ck : BitVec 1) : (packCfg d o ck).extractLsb' 5 5 = BitVec.ofInt 5 o := by
  apply BitVec.eq_of_getLsbD_eq
  intro i hi
  rw [BitVec.getLsbD_extractLsb', packCfg_getLsbD, if_neg (by omega), if_neg (by omega), if_pos (by omega),
    Nat.add_sub_cancel_left]
  simp [hi]

theorem cfgDigits_packCfg {d : Int} (o : Int) (ck : BitVec 1) (h0 : 0 ≤ d) (h1 : d < 16) :
    (cfgDigits (packCfg d o ck) : Int) = d := by
  rw [cfgDigits, digits_packCfg, BitVec.toNat_ofInt]
  omega

theorem cfgOffset_packCfg (d : Int) {o : Int} (ck : BitVec 1) (h0 : -16 ≤ o) (h1 : o < 16) :
    cfgOffset (packCfg d o ck) = o := by
  rw [cfgOffset, offset_packCfg, BitVec.toInt_ofInt_eq_self (by decide) (by simpa using h0) (by simpa using h1)]

/-! ### CFG stays legal (R38) -/

/-- Every configuration inside the ranges CFGBUILD checks packs to a legal CFG (R37, R191). -/
theorem cfgLegal_packCfg {d o : Int} (ck : BitVec 1) (hd6 : 6 ≤ d) (hd8 : d ≤ 8) (ho0 : -1 ≤ o) (ho15 : o ≤ 15) :
    cfgLegal (packCfg d o ck) = true := by
  have hd : (cfgDigits (packCfg d o ck) : Int) = d := cfgDigits_packCfg o ck (by omega) (by omega)
  have ho : cfgOffset (packCfg d o ck) = o := cfgOffset_packCfg d ck (by omega) (by omega)
  have h6 : 6 ≤ cfgDigits (packCfg d o ck) := by omega
  have h8 : cfgDigits (packCfg d o ck) ≤ 8 := by omega
  simp [cfgLegal, cfgValid_packCfg, reserved_packCfg, h6, h8, ho, ho0, ho15]

/-- A command leaves CFG as it is, or stores the staged configuration it has checked (R51, R190). -/
theorem exec_cfg {i : Instr} {s t : State} (h : exec i s = .next t) :
    t.cfg = s.cfg ∨
      (stagedError s = none ∧ t.cfg = packCfg (stagedDigits s) (stagedOffset s) s.cfgChecksumIn) := by
  cases exec_ended h with
  | failed e hne hcode ht => exact .inl (by simp [ht])
  | base32 sh bytes hb hm hl ht => exact .inl (by simp [ht])
  | truncated off bin hi ht => exact .inl (by simp [ht])
  | formatted hi hv hf => obtain ⟨-, rfl⟩ := formatBin_cases hf; exact .inl rfl
  | coded off bin hi hv hf => obtain ⟨-, rfl⟩ := formatBin_cases hf; exact .inl rfl
  | built hi he ht => exact .inr ⟨he, by simp [ht]⟩

theorem exec_keeps_cfgLegal {i : Instr} {s t : State} (hs : cfgLegal s.cfg = true) (h : exec i s = .next t) :
    cfgLegal t.cfg = true := by
  obtain hcfg | ⟨he, hcfg⟩ := exec_cfg h
  · rwa [hcfg]
  · obtain ⟨hd6, hd8, ho0, ho15⟩ := stagedError_none.1 he
    rw [hcfg]
    exact cfgLegal_packCfg _ hd6 hd8 ho0 ho15

/-- CFG is read-only to the host (R21). -/
@[simp] theorem setReg_cfg (s : State) (w : Word) (r : Reg) : (s.setReg w r).cfg = s.cfg := by cases r <;> rfl

@[simp] theorem regWrite_cfg (s : State) (idx w : Word) : (s.regWrite idx w).cfg = s.cfg := by
  unfold State.regWrite
  cases regOf idx with
  | none => rfl
  | some r => exact setReg_cfg s w r

@[simp] theorem bufWrite_cfg (s : State) (sp : Space) (off : Nat) (b : Byte) : (s.bufWrite sp off b).cfg = s.cfg := by
  cases sp <;> rfl

theorem step_keeps_cfgLegal {s t : State} (hs : cfgLegal s.cfg = true) (h : step s = .next t) :
    cfgLegal t.cfg = true := by
  rcases step_cases h with ⟨-, rfl⟩ | ⟨e, rest, -, ⟨w, i, -, -, hx⟩ | ⟨w, r, -, -, rfl⟩ | ⟨idx, w, -, -, rfl⟩ |
    ⟨idx, -, rfl⟩ | ⟨sp, off, b, -, -, rfl⟩ | ⟨sp, off, -, -, rfl⟩ | ⟨-, rfl⟩⟩
  · exact hs
  · exact exec_keeps_cfgLegal (s := { s with port := rest }) hs hx
  · simpa using hs
  · simpa using hs
  · exact hs
  · simpa using hs
  · exact hs
  · rfl

/-- Settles O52: reset clears CFG; a command keeps it or stores a configuration it has checked; no other event but the
reset changes it. -/
theorem cfgStaysLegal : Obligations.CfgStaysLegal :=
  ⟨rfl, fun _ _ => step_keeps_cfgLegal⟩

end Sys2Proof.Machine
end

section
/-! The statements about Base32 encode: the length of an encoding (40_base32_encode.md R110), full groups (R111), tails
and pads (R112, R113), and the agreement of the three call shapes (R120). -/

namespace Sys2Proof.Machine

/-! ### The length of an encoding (R110) -/

theorem tailSyms_le_eight (r : Nat) : tailSyms r ≤ 8 := by
  unfold tailSyms
  split <;> decide

@[simp] theorem encodeTail_nil (v : Variant) : encodeTail v [] = [] := rfl

/-- The pads complete a tail to a whole group (R112). -/
theorem encodeTail_length (v : Variant) {S : List Byte} (h : S ≠ []) : (encodeTail v S).length = 8 := by
  rw [encodeTail, if_neg (by simpa using h), List.length_append, groupSyms_length, List.length_replicate]
  have := tailSyms_le_eight S.length
  omega

theorem encodeCore_length (v : Variant) (S : List Byte) : (encodeCore v S).length = encLen S.length := by
  rw [encodeCore, List.length_append, encodeGroups_length, encLen]
  by_cases h : S.drop (5 * (S.length / 5)) = []
  · have : S.length ≤ 5 * (S.length / 5) := by simpa using h
    rw [h, encodeTail_nil, List.length_nil]
    omega
  · have : ¬ S.length ≤ 5 * (S.length / 5) := by simpa using h
    rw [encodeTail_length v h]
    omega

/-- A length of 1 to 5 bytes makes one group. -/
theorem encLen_of_le_five {n : Nat} (h1 : 1 ≤ n) (h5 : n ≤ 5) : encLen n = 8 := by
  unfold encLen
  omega

/-- Settles O16: each full group gives 8 bytes of text, and the pads complete a tail to 8. -/
theorem encodingLength : Obligations.EncodingLength :=
  ⟨encodeCore_length, fun _ => rfl, rfl, fun _ => encLen_of_le_five, rfl⟩

/-! ### Full groups (R111) -/

/-- The eight 5-bit slices of a group, as the table of R111 takes them from the five bytes. -/
def groupIndices (B0 B1 B2 B3 B4 : Byte) : List (BitVec 5) :=
  [B0.extractLsb' 3 5, B0.extractLsb' 0 3 ++ B1.extractLsb' 6 2, B1.extractLsb' 1 5,
    B1.extractLsb' 0 1 ++ B2.extractLsb' 4 4, B2.extractLsb' 0 4 ++ B3.extractLsb' 7 1, B3.extractLsb' 2 5,
    B3.extractLsb' 0 2 ++ B4.extractLsb' 5 3, B4.extractLsb' 0 5]

/-- The bits of a slice that takes the low bits of one byte and, below them, bits of the next. -/
theorem getLsbD_straddle (a b p : Nat) (X Y : Byte) (i : Nat) :
    (X.extractLsb' 0 a ++ Y.extractLsb' p b).getLsbD i =
      if i < b then Y.getLsbD (p + i) else decide (i - b < a) && X.getLsbD (i - b) := by
  rw [BitVec.getLsbD_append]
  split_ifs with h <;> simp [h, BitVec.getLsbD_extractLsb']

/-- The slices of the 40-bit value are those of the table: compared bit by bit. -/
theorem symSlice_byteWord (B0 B1 B2 B3 B4 : Byte) :
    (List.range 8).map (symSlice (byteWord [B0, B1, B2, B3, B4])) = groupIndices B0 B1 B2 B3 B4 := by
  simp only [List.range_succ, List.range_zero, List.nil_append, List.cons_append, List.map_cons, List.map_nil,
    groupIndices, List.cons.injEq, and_true]
  refine ⟨?_, ?_, ?_, ?_, ?_, ?_, ?_, ?_⟩ <;>
  · apply BitVec.eq_of_getLsbD_eq
    intro i hi
    simp only [symSlice_getLsbD, byteWord_getLsbD, BitVec.getLsbD_extractLsb', getLsbD_straddle 3 2,
      getLsbD_straddle 1 4, getLsbD_straddle 4 1, getLsbD_straddle 2 3]
    interval_cases i <;> rfl

/-- The first symbols of a group are the alphabet's entries for the first indices of the table (R111, R113). -/
theorem groupSyms_byteWord (v : Variant) (B0 B1 B2 B3 B4 : Byte) {n : Nat} (h : n ≤ 8) :
    groupSyms v (byteWord [B0, B1, B2, B3, B4]) n = ((groupIndices B0 B1 B2 B3 B4).take n).map (alpha v) := by
  rw [groupSyms_eq_map, ← symSlice_byteWord, ← List.map_take, List.take_range, Nat.min_eq_left h]

/-- Settles O17: groups come off the front of an encoding, and a group's slices are those of the table. -/
theorem fullGroupEncodesAsTheTableSays : Obligations.FullGroupEncodesAsTheTableSays := by
  intro v S rest B0 B1 B2 B3 B4 h
  rw [List.append_assoc, encodeCore_append v S _ h, List.append_assoc]
  simp only [List.cons_append, List.nil_append, encodeCore_group, groupSyms_byteWord v _ _ _ _ _ le_rfl]
  rfl

/-! ### Tails (R112, R113) -/

/-- Full groups are symbols only, of the same indices in both alphabets (R114). -/
theorem encodeGroups_eq_map (g : Nat) (S : List Byte) :
    ∃ K : List (BitVec 5), ∀ v, encodeGroups v g S = K.map (alpha v) := by
  induction g generalizing S with
  | zero => exact ⟨[], fun _ => rfl⟩
  | succ g ih =>
    obtain ⟨K, hK⟩ := ih (S.drop 5)
    exact ⟨(List.range 8).map (symSlice (byteWord S)) ++ K, fun v => by
      rw [encodeGroups, hK, groupSyms_eq_map, List.map_append]⟩

/-- Whole groups have no tail. -/
theorem encodeCore_of_dvd (v : Variant) {S : List Byte} (h : 5 ∣ S.length) :
    encodeCore v S = encodeGroups v (S.length / 5) S := by
  rw [encodeCore, Nat.mul_div_cancel' h, List.drop_length, encodeTail_nil, List.append_nil]

/-- Without a tail no byte of the encoding is a pad (R112). -/
theorem ne_padByte_of_mem_encodeCore {v : Variant} {S : List Byte} (h : 5 ∣ S.length) {b : Byte}
    (hb : b ∈ encodeCore v S) : b ≠ padByte := by
  obtain ⟨K, hK⟩ := encodeGroups_eq_map (S.length / 5) S
  rw [encodeCore_of_dvd v h, hK, List.mem_map] at hb
  obtain ⟨k, -, rfl⟩ := hb
  exact alpha_ne_padByte v k

/-- Fewer bytes than a group are a tail only. -/
theorem encodeCore_tail (v : Variant) {R : List Byte} (h0 : R ≠ []) (h5 : R.length < 5) :
    encodeCore v R =
      groupSyms v (byteWord R) (tailSyms R.length) ++ List.replicate (8 - tailSyms R.length) padByte := by
  rw [encodeCore, Nat.div_eq_of_lt h5, encodeGroups, Nat.mul_zero, List.drop_zero, List.nil_append, encodeTail,
    if_neg (by simpa using h0)]

/-- The encoding of a tail behind full groups: the first indices of the table for a group `C0..C4` of the same 40-bit
value, then the pads (R112, R113). -/
theorem encodeCore_append_tail (v : Variant) {S R : List Byte} {C0 C1 C2 C3 C4 : Byte} (h : 5 ∣ S.length) (h0 : R ≠ [])
    (h5 : R.length < 5) (hC : byteWord R = byteWord [C0, C1, C2, C3, C4]) :
    encodeCore v (S ++ R) =
      encodeCore v S ++ ((groupIndices C0 C1 C2 C3 C4).take (tailSyms R.length)).map (alpha v) ++
        List.replicate (8 - tailSyms R.length) padByte := by
  rw [encodeCore_append v S R h, encodeCore_tail v h0 h5, hC, groupSyms_byteWord v _ _ _ _ _ (tailSyms_le_eight _),
    List.append_assoc]

/-- Settles O18: a tail is encoded as the group that zero bytes fill it up to, cut off after its `TailSyms` symbols; the
slices of the zero bytes are the zero fill. -/
theorem tailEncodesWithZeroFillAndPads : Obligations.TailEncodesWithZeroFillAndPads := by
  intro v S B0 B1 B2 B3 h
  refine ⟨fun b => ne_padByte_of_mem_encodeCore h, ?_, ?_, ?_, ?_⟩
  · have hC : byteWord [B0] = byteWord [B0, 0#8, 0#8, 0#8, 0#8] := rfl
    rw [encodeCore_append_tail v h (by simp) (by simp) hC]
    rfl
  · have hC : byteWord [B0, B1] = byteWord [B0, B1, 0#8, 0#8, 0#8] := rfl
    rw [encodeCore_append_tail v h (by simp) (by simp) hC]
    rfl
  · have hC : byteWord [B0, B1, B2] = byteWord [B0, B1, B2, 0#8, 0#8] := rfl
    rw [encodeCore_append_tail v h (by simp) (by simp) hC]
    rfl
  · have hC : byteWord [B0, B1, B2, B3] = byteWord [B0, B1, B2, B3, 0#8] := rfl
    rw [encodeCore_append_tail v h (by simp) (by simp) hC]
    rfl

/-! ### The three shapes agree (R120) -/

/-- Each of the three encode commands of a variant is `EncodeProc` in its shape (R117, R118, R119). -/
theorem exec_encode {v : Variant} {i : Instr} (h : i ∈ [Instr.b32encF v, .b32encI v, .b32encC v]) :
    ∃ sh, ∀ s, exec i s = encodeProc i v sh s := by
  simp only [List.mem_cons, List.not_mem_nil, or_false] at h
  rcases h with rfl | rfl | rfl
  · exact ⟨.F, fun _ => rfl⟩
  · exact ⟨.I, fun _ => rfl⟩
  · exact ⟨.C, fun _ => rfl⟩

/-- A failing command's STATUS is never that of success (R23, R221). -/
theorem errStatus_ne_okStatus (cmd : Instr) {c : ErrCode} (h : c ≠ .ok) : errStatus cmd c ≠ okStatus := by
  intro he
  have hc : c.toBits = 0#4 := by rw [← statusCode_errStatus cmd c, he, statusCode_okStatus]
  exact h (ErrCode.toBits_eq_zero.1 hc)

theorem encodeError_code_ne_ok {sh : Shape} {s : State} {e : Err} (h : encodeError sh s = some e) : e.code ≠ .ok := by
  rcases encodeError_some h with hc | hc | ⟨-, hc⟩ <;> simp [hc]

/-- An encode command that reports success passed its checks and committed the encoding of its input (R115). -/
theorem encodeProc_succeeded {cmd : Instr} {v : Variant} {sh : Shape} {s t : State}
    (h : encodeProc cmd v sh s = .next t) (hs : t.status = okStatus) :
    encodeError sh s = none ∧ t = (advance sh (s.delivered (encodeCore v (inputOf s)))).succeed := by
  rcases encodeProc_cases h with ⟨e, he, rfl⟩ | ⟨he, -, hc⟩
  · exact absurd hs (by simpa using errStatus_ne_okStatus cmd (encodeError_code_ne_ok he))
  · exact ⟨he, (commitBytes_cases hc).2⟩

/-- The shapes differ in IN_POS only (R25, R120). -/
theorem advance_succeed_eq (sh sh' : Shape) (s : State) :
    (advance sh' s).succeed = { (advance sh s).succeed with inPos := (advance sh' s).succeed.inPos } := by
  cases sh <;> cases sh' <;> rfl

theorem inputOf_length (s : State) : (inputOf s).length = rangeLen s := bytesAt_length ..

/-- OUT_LEN holds the length of a delivered encoding, which the overflow guard let pass (R28, R116). -/
theorem delivered_encoding_outLen {sh : Shape} {s : State} (v : Variant) (h : encodeError sh s = none) :
    (s.delivered (encodeCore v (inputOf s))).outLen.toNat = encLen (rangeLen s) := by
  obtain ⟨-, hguard, -⟩ := encodeError_none.1 h
  rw [delivered_outLen, encodeCore_length, inputOf_length, BitVec.toNat_ofNat, Nat.mod_eq_of_lt]
  unfold lenMax at hguard
  omega

/-- Settles O25: every shape that succeeds delivers the same encoding of the same input, and the shape decides IN_POS
alone. -/
theorem encodeShapesAgree : Obligations.EncodeShapesAgree := by
  intro v s t u i j hi hj ht hu hst hsu
  obtain ⟨sh, hi⟩ := exec_encode hi
  obtain ⟨sh', hj⟩ := exec_encode hj
  rw [hi] at ht
  rw [hj] at hu
  obtain ⟨he, rfl⟩ := encodeProc_succeeded ht hst
  obtain ⟨-, rfl⟩ := encodeProc_succeeded hu hsu
  refine ⟨advance_succeed_eq sh sh' _, ?_⟩
  rw [succeed_outLen, advance_outLen]
  exact delivered_encoding_outLen v he

end Sys2Proof.Machine
end

section
/-! The statements about Base32 decode: which texts the decoder accepts (41_base32_decode.md R133), the illegal byte it
reports (R134), the bytes of full groups and tails (R140, R141), and that it inverts the encoder (R150). -/

namespace Sys2Proof.Machine

/-! ### The cases of the decoder (R143) -/

/-- The decoder accepts a text with neither an illegal byte before its first pad nor a structural error. -/
theorem decodeCore_eq_ok {v : Variant} {T bytes : List Byte} :
    decodeCore v T = .ok bytes ↔
      firstIllegal v (beforePad T) = none ∧
      structureError T.length (beforePad T).length (T.drop (beforePad T).length) = none ∧
      decodeGroups ((beforePad T).length / 8) ((beforePad T).map (symIndex v)) = bytes := by
  unfold decodeCore
  split
  next i hi => simp [hi]
  next hi =>
    split
    next c hs => simp [hs]
    next hs => simp [hi, hs]

/-- A structural error is never an illegal character (R135, R136, R138, R139). -/
theorem structureError_ne_illchar (n p : Nat) (rest : List Byte) : structureError n p rest ≠ some .illchar := by
  unfold structureError
  split_ifs <;> simp

theorem decodeCore_eq_illchar {v : Variant} {T : List Byte} {i : Nat} :
    decodeCore v T = .err .illchar i ↔ firstIllegal v (beforePad T) = some i := by
  unfold decodeCore
  split
  next j hj => simp [hj]
  next hj =>
    split
    next c hs =>
      have hc : c ≠ .illchar := by
        rintro rfl
        exact structureError_ne_illchar _ _ _ hs
      simp [hj, hc]
    next hs => simp [hj]

/-! ### The first pad (R130) -/

theorem isFirstPad_cons_succ {b : Byte} {T : List Byte} {p : Nat} (h : IsFirstPad (b :: T) (p + 1)) :
    b ≠ padByte ∧ IsFirstPad T p := by
  obtain ⟨hle, hbefore, hat⟩ := h
  refine ⟨hbefore 0 (by omega), Nat.le_of_succ_le_succ hle, fun i hi => hbefore (i + 1) (by omega), fun hp => ?_⟩
  exact hat (Nat.succ_lt_succ hp)

/-- The decoder cuts a text at its first pad. -/
theorem length_beforePad_of_isFirstPad {T : List Byte} {p : Nat} (h : IsFirstPad T p) : (beforePad T).length = p := by
  induction T generalizing p with
  | nil =>
    obtain ⟨hle, -, -⟩ := h
    exact (Nat.le_zero.1 hle).symm
  | cons b T ih =>
    cases p with
    | zero =>
      obtain ⟨-, -, hat⟩ := h
      have hb : b = padByte := hat (Nat.succ_pos _)
      simp [beforePad, hb]
    | succ p =>
      obtain ⟨hb, hT⟩ := isFirstPad_cons_succ h
      have hp : (List.takeWhile (fun b => b != padByte) T).length = p := ih hT
      simp [beforePad, hb, hp]

/-! ### Acceptance (R133) -/

/-- A byte other than the pad is legal exactly when it is a symbol (R46). -/
theorem inv_ne_ill_iff {v : Variant} {b : Byte} (hb : b ≠ padByte) : inv v b ≠ .ill ↔ ∃ k, inv v b = .sym k := by
  cases h : inv v b with
  | sym k => simp
  | pad => exact absurd ((inv_eq_pad_iff v b).1 h) hb
  | ill => simp

/-- No byte before the first pad is illegal exactly when every one is a symbol. -/
theorem firstIllegal_beforePad_eq_none {v : Variant} {T : List Byte} {p : Nat} (h : IsFirstPad T p) :
    firstIllegal v (beforePad T) = none ↔ ∀ i, i < p → ∃ k, inv v (T.getD i 0#8) = .sym k := by
  have hlen := length_beforePad_of_isFirstPad h
  obtain ⟨-, hbefore, -⟩ := h
  rw [firstIllegal_eq_none, hlen]
  refine forall₂_congr fun i hi => ?_
  rw [beforePad_getD T i (by omega), inv_ne_ill_iff (hbefore i hi)]

/-- Nothing but pads stands from index `p` on. -/
theorem any_drop_ne_padByte_eq_false {T : List Byte} {p : Nat} :
    ((T.drop p).any fun b => b != padByte) = false ↔ ∀ j, p ≤ j → j < T.length → T.getD j 0#8 = padByte := by
  simp only [List.any_eq_false, bne_iff_ne, ne_eq, not_not, List.forall_mem_iff_getElem, List.length_drop,
    List.getElem_drop]
  constructor
  · intro h j hp hj
    have hpad := h (j - p) (by omega)
    simpa [Nat.add_sub_cancel' hp, hj] using hpad
  · intro h j hj
    simpa [show p + j < T.length by omega] using h (p + j) (by omega) (by omega)

/-- Settles O28: the two conditions of the decoder are the two of the rule. -/
theorem decoderAcceptsExactly : Obligations.DecoderAcceptsExactly := by
  intro v T p h
  have hle : T.length ≤ p ↔ p = T.length := h.1.ge_iff_eq'.trans eq_comm
  simp only [decodeCore_eq_ok, exists_and_left, exists_eq', and_true, firstIllegal_beforePad_eq_none h,
    length_beforePad_of_isFirstPad h, structureError_eq_none, any_drop_ne_padByte_eq_false, hle, Accepted]

/-! ### The illegal byte reported (R134) -/

/-- Each of the three decode commands of a variant is `DecodeProc` in its shape (R146, R147, R148). -/
theorem exec_decode {v : Variant} {cmd : Instr} (h : cmd ∈ [Instr.b32decF v, .b32decI v, .b32decC v]) :
    ∃ sh, (∀ s, exec cmd s = decodeProc cmd v sh s) ∧ (sh = .I → cmd = .b32decI v) := by
  simp only [List.mem_cons, List.not_mem_nil, or_false] at h
  rcases h with rfl | rfl | rfl
  · exact ⟨.F, fun _ => rfl, nofun⟩
  · exact ⟨.I, fun _ => rfl, fun _ => rfl⟩
  · exact ⟨.C, fun _ => rfl, nofun⟩

/-- A decode command whose operands are in range raises the decoder's error (R145). -/
theorem exec_decode_rejects {v : Variant} {cmd : Instr} {s : State} {c : ErrCode} {i : Nat}
    (h : cmd ∈ [Instr.b32decF v, .b32decI v, .b32decC v]) (hr : RangeOk s)
    (hc : cmd = .b32decI v → s.outCap.toNat ≤ s.par.outSize) (hd : decodeCore v (inputOf s) = .err c i) :
    exec cmd s = .next (raise cmd (decodeErr s c i) s) := by
  obtain ⟨sh, hexec, hI⟩ := exec_decode h
  have hrange : rangeError sh s = none := rangeError_none.2 ⟨hr.1, hr.2, fun hsh => hc (hI hsh)⟩
  rw [hexec]
  exact decodeProc_rejects hrange hd

/-- An illegal character is reported at an index of the text. -/
theorem lt_length_of_decodeCore_illchar {v : Variant} {T : List Byte} {i : Nat}
    (h : decodeCore v T = .err .illchar i) : i < T.length :=
  ((firstIllegal_eq_some v _ i).1 (decodeCore_eq_illchar.1 h)).1.trans_le (beforePad_length_le T)

/-- The absolute index of an illegal character is below IN_LIMIT, so EINFO holds it (R24, R134). -/
theorem toNat_decodeErr_illchar {v : Variant} {s : State} {i : Nat}
    (h : decodeCore v (inputOf s) = .err .illchar i) :
    (decodeErr s .illchar i).info.toNat = s.inPos.toNat + i := by
  have hi := lt_length_of_decodeCore_illchar h
  rw [inputOf_length, rangeLen] at hi
  rw [decodeErr, if_pos rfl, BitVec.toNat_ofNat, Nat.mod_eq_of_lt]
  have := s.inLimit.isLt
  omega

/-- STATUS of an illegal character, `K_MALFORMED` for every command (R23, R216). -/
theorem errStatus_illchar (cmd : Instr) : errStatus cmd .illchar = 0xC5#8 := by
  show statusWord .malformed .illchar = 0xC5#8
  decide

/-- Settles O29: the decoder's search finds the smallest index, and each command raises it as the absolute one. -/
theorem firstIllegalCharacterIsReported : Obligations.FirstIllegalCharacterIsReported := by
  refine ⟨fun v T p i h => ?_, fun v s i cmd hcmd hr hc hd => ?_⟩
  · have hlen := length_beforePad_of_isFirstPad h
    rw [decodeCore_eq_illchar, firstIllegal_eq_some, hlen]
    refine and_congr_right fun hi => ?_
    have hget : ∀ j, j ≤ i → (beforePad T).getD j 0#8 = T.getD j 0#8 := fun j hj => beforePad_getD T j (by omega)
    rw [hget i le_rfl]
    exact and_congr_right fun _ => forall₂_congr fun j hj => by rw [hget j hj.le]
  · refine ⟨_, exec_decode_rejects hcmd hr hc hd, ?_, ?_⟩
    · rw [raise_status, decodeErr, errStatus_illchar]
    · rw [raise_einfo, toNat_decodeErr_illchar hd]

/-! ### Full groups (R140) -/

/-- The five bytes of a group, as the table of R140 takes them from the eight symbols. -/
def groupOctets (k0 k1 k2 k3 k4 k5 k6 k7 : BitVec 5) : List Byte :=
  [k0 ++ k1.extractLsb' 2 3, k1.extractLsb' 0 2 ++ k2 ++ k3.extractLsb' 4 1,
    k3.extractLsb' 0 4 ++ k4.extractLsb' 1 4, k4.extractLsb' 0 1 ++ k5 ++ k6.extractLsb' 3 2,
    k6.extractLsb' 0 3 ++ k7]

/-- The slices of the 40-bit value are the bytes of the table: compared bit by bit. -/
theorem byteSlice_symWord (k0 k1 k2 k3 k4 k5 k6 k7 : BitVec 5) :
    (List.range 5).map (byteSlice (symWord [k0, k1, k2, k3, k4, k5, k6, k7])) =
      groupOctets k0 k1 k2 k3 k4 k5 k6 k7 := by
  simp only [List.range_succ, List.range_zero, List.nil_append, List.cons_append, List.map_cons, List.map_nil,
    groupOctets, List.cons.injEq, and_true]
  refine ⟨?_, ?_, ?_, ?_, ?_⟩ <;>
  · apply BitVec.eq_of_getLsbD_eq
    intro i hi
    rw [byteSlice_getLsbD, symWord_getLsbD]
    simp only [BitVec.getLsbD_append, BitVec.getLsbD_extractLsb']
    interval_cases i <;> rfl

/-- The bytes of a partial group are the first of the full group's. -/
theorem groupBytes_eq_take (W : BitVec 40) {n : Nat} (h : n ≤ 5) :
    groupBytes W n = ((List.range 5).map (byteSlice W)).take n := by
  rw [← List.map_take, List.take_range, Nat.min_eq_left h]
  rfl

/-- The first bytes of a group are the first of the table (R140, R141). -/
theorem groupBytes_symWord (k0 k1 k2 k3 k4 k5 k6 k7 : BitVec 5) {n : Nat} (h : n ≤ 5) :
    groupBytes (symWord [k0, k1, k2, k3, k4, k5, k6, k7]) n = (groupOctets k0 k1 k2 k3 k4 k5 k6 k7).take n := by
  rw [groupBytes_eq_take _ h, byteSlice_symWord]

/-- Symbols in front of a text are legal, so they leave the search of an illegal byte to what follows (R134). -/
theorem firstIllegal_append_eq_none (v : Variant) (K : List (BitVec 5)) (R : List Byte) :
    firstIllegal v (K.map (alpha v) ++ R) = none ↔ firstIllegal v R = none := by
  simp [firstIllegal, List.findIdx?_eq_none_iff, inv_alpha]

/-- Whole groups of symbols come off the front of an accepted text (R143). -/
theorem decodeCore_append {v : Variant} {K : List (BitVec 5)} {R out : List Byte} {g : Nat} (hK : K.length = 8 * g)
    (hR : decodeCore v R = .ok out) : decodeCore v (K.map (alpha v) ++ R) = .ok (decodeGroups g K ++ out) := by
  obtain ⟨hlegal, hstruct, rfl⟩ := decodeCore_eq_ok.1 hR
  have hlen : (beforePad (K.map (alpha v) ++ R)).length = (beforePad R).length + 8 * g := by
    rw [beforePad_append, List.length_append, List.length_map, hK, Nat.add_comm]
  refine decodeCore_eq_ok.2 ⟨?_, ?_, ?_⟩
  · rwa [beforePad_append, firstIllegal_append_eq_none]
  · have hrest : (K.map (alpha v) ++ R).drop ((beforePad R).length + 8 * g) = R.drop (beforePad R).length := by
      rw [Nat.add_comm, ← List.drop_drop, List.drop_left' (by rw [List.length_map, hK])]
    rw [hlen, hrest, List.length_append, List.length_map, hK, Nat.add_comm, structureError_add, hstruct]
  · have hdiv : ((beforePad R).length + 8 * g) / 8 = g + (beforePad R).length / 8 := by omega
    rw [hlen, hdiv, beforePad_append, List.map_append, map_symIndex_alpha, decodeGroups_append _ _ _ _ hK]

theorem decodeCore_nil (v : Variant) : decodeCore v [] = .ok [] := rfl

/-- Whole groups of symbols alone. -/
theorem decodeCore_groups (v : Variant) {K : List (BitVec 5)} {g : Nat} (hK : K.length = 8 * g) :
    decodeCore v (K.map (alpha v)) = .ok (decodeGroups g K) := by
  simpa using decodeCore_append hK (decodeCore_nil v)

/-- One full group comes off the front of an accepted text. -/
theorem decodeCore_group {v : Variant} {K : List (BitVec 5)} {R out : List Byte} (hK : K.length = 8)
    (hR : decodeCore v R = .ok out) :
    decodeCore v (K.map (alpha v) ++ R) = .ok (groupBytes (symWord K) 5 ++ out) := by
  have hone : decodeGroups 1 K = groupBytes (symWord K) 5 := by
    rw [decodeGroups, decodeGroups, List.drop_of_length_le hK.le]
    exact List.append_nil _
  rw [decodeCore_append (g := 1) hK hR, hone]

/-- Settles O32: groups come off the front of an accepted text, and a group's bytes are those of the table. -/
theorem fullGroupDecodesAsTheTableSays : Obligations.FullGroupDecodesAsTheTableSays := by
  intro v K k0 k1 k2 k3 k4 k5 k6 k7 rest out hK hrest
  obtain ⟨g, hg⟩ := hK
  refine ⟨_, decodeCore_groups v hg, ?_⟩
  rw [List.append_assoc, decodeCore_append hg (decodeCore_group rfl hrest), groupBytes_symWord _ _ _ _ _ _ _ _ le_rfl,
    List.append_assoc]
  rfl

/-! ### Tails (R141) -/

theorem beforePad_replicate (q : Nat) : beforePad (List.replicate q padByte) = [] := by
  simp [beforePad]

theorem tailBytes_le_five (n : Nat) : tailBytes n ≤ 5 := by
  unfold tailBytes
  split <;> decide

/-- A partial group, bare or completed by its pads, gives its whole bytes (R133, R141). -/
theorem decodeCore_tail (v : Variant) {K : List (BitVec 5)} {q : Nat} (hK : K.length ∈ [2, 4, 5, 7])
    (hq : q ∈ [0, 8 - K.length]) :
    decodeCore v (K.map (alpha v) ++ List.replicate q padByte) = .ok (groupBytes (symWord K) (tailBytes K.length)) := by
  have hbefore : beforePad (K.map (alpha v) ++ List.replicate q padByte) = K.map (alpha v) := by
    rw [beforePad_append, beforePad_replicate, List.append_nil]
  simp only [List.mem_cons, List.not_mem_nil, or_false] at hK hq
  refine decodeCore_eq_ok.2 ⟨?_, ?_, ?_⟩
  · rw [beforePad_append, firstIllegal_append_eq_none, beforePad_replicate]
    rfl
  · simp only [hbefore, structureError_eq_none, List.length_append, List.length_map, List.length_replicate,
      List.mem_cons, List.not_mem_nil, or_false]
    rcases hq with rfl | rfl
    · exact .inl (by omega)
    · exact .inr ⟨by omega, by omega, by omega, by simp⟩
  · have hdiv : K.length / 8 = 0 := by omega
    rw [hbefore, List.length_map, hdiv, map_symIndex_alpha, decodeGroups]

/-- The bytes of a partial group are the first of the table for a full group `c0..c7` of the same 40-bit value (R141). -/
theorem decodeCore_tail_eq_take (v : Variant) {K : List (BitVec 5)} {q : Nat} (hK : K.length ∈ [2, 4, 5, 7])
    (hq : q ∈ [0, 8 - K.length]) {c0 c1 c2 c3 c4 c5 c6 c7 : BitVec 5}
    (hC : symWord K = symWord [c0, c1, c2, c3, c4, c5, c6, c7]) :
    decodeCore v (K.map (alpha v) ++ List.replicate q padByte) =
      .ok ((groupOctets c0 c1 c2 c3 c4 c5 c6 c7).take (tailBytes K.length)) := by
  rw [decodeCore_tail v hK hq, hC, groupBytes_symWord _ _ _ _ _ _ _ _ (tailBytes_le_five _)]

/-- Settles O33: the missing symbols of a tail are zero, so its bytes are the first of the table's, which take no low bit of
the last symbol. -/
theorem tailDecodesIgnoringLowBits : Obligations.TailDecodesIgnoringLowBits := by
  intro v k0 k1 k2 k3 k4 k5 k6
  refine ⟨fun q hq => ?_, fun q hq => ?_, fun q hq => ?_, fun q hq => ?_⟩
  · have hC : symWord [k0, k1] = symWord [k0, k1, 0#5, 0#5, 0#5, 0#5, 0#5, 0#5] := rfl
    exact decodeCore_tail_eq_take v (by simp) hq hC
  · have hC : symWord [k0, k1, k2, k3] = symWord [k0, k1, k2, k3, 0#5, 0#5, 0#5, 0#5] := rfl
    exact decodeCore_tail_eq_take v (by simp) hq hC
  · have hC : symWord [k0, k1, k2, k3, k4] = symWord [k0, k1, k2, k3, k4, 0#5, 0#5, 0#5] := rfl
    exact decodeCore_tail_eq_take v (by simp) hq hC
  · have hC : symWord [k0, k1, k2, k3, k4, k5, k6] = symWord [k0, k1, k2, k3, k4, k5, k6, 0#5] := rfl
    exact decodeCore_tail_eq_take v (by simp) hq hC

/-! ### Decoding an encoding (R150) -/

/-- The table of R111 cuts the 40 bits of five bytes into eight indices that make up the same 40 bits. -/
theorem symWord_groupIndices (B0 B1 B2 B3 B4 : Byte) :
    symWord (groupIndices B0 B1 B2 B3 B4) = byteWord [B0, B1, B2, B3, B4] := by
  apply BitVec.eq_of_getLsbD_eq
  intro i hi
  rw [groupIndices, symWord_getLsbD, byteWord_getLsbD]
  simp only [BitVec.getLsbD_extractLsb', getLsbD_straddle 3 2, getLsbD_straddle 1 4, getLsbD_straddle 4 1,
    getLsbD_straddle 2 3]
  interval_cases i <;> rfl

/-- The byte slices of the 40-bit value of five bytes are those bytes: compared bit by bit. -/
theorem byteSlice_byteWord (B0 B1 B2 B3 B4 : Byte) :
    (List.range 5).map (byteSlice (byteWord [B0, B1, B2, B3, B4])) = [B0, B1, B2, B3, B4] := by
  simp only [List.range_succ, List.range_zero, List.nil_append, List.cons_append, List.map_cons, List.map_nil,
    List.cons.injEq, and_true]
  refine ⟨?_, ?_, ?_, ?_, ?_⟩ <;>
  · apply BitVec.eq_of_getLsbD_eq
    intro i hi
    rw [byteSlice_getLsbD, byteWord_getLsbD]
    interval_cases i <;> rfl

/-- The first bytes of the 40-bit value of five bytes are the first of those bytes (R111, R140). -/
theorem groupBytes_byteWord (B0 B1 B2 B3 B4 : Byte) {n : Nat} (h : n ≤ 5) :
    groupBytes (byteWord [B0, B1, B2, B3, B4]) n = [B0, B1, B2, B3, B4].take n := by
  rw [groupBytes_eq_take _ h, byteSlice_byteWord]

/-- The encoding of `S` is symbols and then pads, and decodes to `S` with the pads and without them. -/
def RoundTrips (v : Variant) (S : List Byte) : Prop :=
  ∃ (K : List (BitVec 5)) (q : Nat), encodeCore v S = K.map (alpha v) ++ List.replicate q padByte ∧
    ∀ n ∈ [0, q], decodeCore v (K.map (alpha v) ++ List.replicate n padByte) = .ok S

theorem roundTrips_nil (v : Variant) : RoundTrips v [] := by
  refine ⟨[], 0, rfl, fun n hn => ?_⟩
  obtain rfl : n = 0 := by simpa using hn
  exact decodeCore_nil v

/-- A full group in front keeps the round trip. -/
theorem roundTrips_group {v : Variant} {S : List Byte} (B0 B1 B2 B3 B4 : Byte) (h : RoundTrips v S) :
    RoundTrips v (B0 :: B1 :: B2 :: B3 :: B4 :: S) := by
  obtain ⟨K, q, henc, hdec⟩ := h
  refine ⟨groupIndices B0 B1 B2 B3 B4 ++ K, q, ?_, fun n hn => ?_⟩
  · rw [encodeCore_group, groupSyms_byteWord v _ _ _ _ _ le_rfl, henc, List.map_append, List.append_assoc]
    rfl
  · rw [List.map_append, List.append_assoc, decodeCore_group rfl (hdec n hn), symWord_groupIndices,
      groupBytes_byteWord _ _ _ _ _ le_rfl]
    rfl

theorem tailSyms_mem {r : Nat} (h0 : 0 < r) (h5 : r < 5) : tailSyms r ∈ [2, 4, 5, 7] := by
  interval_cases r <;> decide

/-- The symbols of a tail carry exactly its bytes (R112, R131). -/
theorem tailBytes_tailSyms {r : Nat} (h5 : r < 5) : tailBytes (tailSyms r) = r := by
  interval_cases r <;> rfl

/-- A tail makes the round trip when zero bytes complete it to the group `C0..C4` and the indices behind its own symbols
are then zero. -/
theorem roundTrips_tail (v : Variant) {R : List Byte} {C0 C1 C2 C3 C4 : Byte} (h0 : R ≠ []) (h5 : R.length < 5)
    (hbytes : byteWord R = byteWord [C0, C1, C2, C3, C4])
    (hsyms : symWord ((groupIndices C0 C1 C2 C3 C4).take (tailSyms R.length)) = symWord (groupIndices C0 C1 C2 C3 C4))
    (htake : [C0, C1, C2, C3, C4].take R.length = R) : RoundTrips v R := by
  have hlen : ((groupIndices C0 C1 C2 C3 C4).take (tailSyms R.length)).length = tailSyms R.length :=
    List.length_take_of_le (tailSyms_le_eight _)
  refine ⟨(groupIndices C0 C1 C2 C3 C4).take (tailSyms R.length), 8 - tailSyms R.length, ?_, fun n hn => ?_⟩
  · rw [encodeCore_tail v h0 h5, hbytes, groupSyms_byteWord v _ _ _ _ _ (tailSyms_le_eight _)]
  · have hmem := tailSyms_mem (List.length_pos_iff.2 h0) h5
    rw [decodeCore_tail v (by rwa [hlen]) (by rwa [hlen]), hlen, tailBytes_tailSyms h5, hsyms, symWord_groupIndices,
      groupBytes_byteWord _ _ _ _ _ h5.le, htake]

/-- Every byte list makes the round trip: by its groups of five bytes, then its tail. -/
theorem roundTrips (v : Variant) : ∀ S : List Byte, RoundTrips v S
  | [] => roundTrips_nil v
  | [B0] => roundTrips_tail v (C0 := B0) (C1 := 0#8) (C2 := 0#8) (C3 := 0#8) (C4 := 0#8) (by simp) (by simp) rfl rfl rfl
  | [B0, B1] =>
    roundTrips_tail v (C0 := B0) (C1 := B1) (C2 := 0#8) (C3 := 0#8) (C4 := 0#8) (by simp) (by simp) rfl rfl rfl
  | [B0, B1, B2] =>
    roundTrips_tail v (C0 := B0) (C1 := B1) (C2 := B2) (C3 := 0#8) (C4 := 0#8) (by simp) (by simp) rfl rfl rfl
  | [B0, B1, B2, B3] =>
    roundTrips_tail v (C0 := B0) (C1 := B1) (C2 := B2) (C3 := B3) (C4 := 0#8) (by simp) (by simp) rfl rfl rfl
  | B0 :: B1 :: B2 :: B3 :: B4 :: S => roundTrips_group B0 B1 B2 B3 B4 (roundTrips v S)

/-- Stripping the pads off symbols and pads leaves the symbols. -/
theorem filter_symbols_pads (v : Variant) (K : List (BitVec 5)) (q : Nat) :
    (K.map (alpha v) ++ List.replicate q padByte).filter (fun b => b != padByte) = K.map (alpha v) := by
  simp [List.filter_eq_self, alpha_ne_padByte]

/-- Settles O27: every byte list makes the round trip; two symbols without pads are accepted and no encoding, whose length
is a multiple of 8. -/
theorem decodeInvertsEncode : Obligations.DecodeInvertsEncode := by
  refine ⟨fun v S => ?_, fun v S => ?_, fun v => ?_⟩
  · obtain ⟨K, q, henc, hdec⟩ := roundTrips v S
    rw [henc, hdec q (by simp)]
  · obtain ⟨K, q, henc, hdec⟩ := roundTrips v S
    rw [henc, filter_symbols_pads]
    simpa using hdec 0 (by simp)
  · have hdec := (tailDecodesIgnoringLowBits v 0#5 0#5 0#5 0#5 0#5 0#5 0#5).1 0 (by simp)
    refine ⟨[0#5, 0#5].map (alpha v) ++ List.replicate 0 padByte, [0x00#8], hdec, fun h => ?_⟩
    have hlen : encLen 1 = 2 := by simpa [encodeCore_length] using congrArg List.length h
    exact absurd hlen (by decide)

end Sys2Proof.Machine
end

section
/-! The statements about HOTP truncation and formatting: the selected offset (42_hotp_truncate_format.md R163, R164, R165),
the extraction (R166), the checksum digit (R169), the decimal string (R172, R179), and what the results depend on (R178). -/

namespace Sys2Proof.Machine

/-! ### The offset (R163, R164, R165) -/

theorem selectOffset_fixed {o : Int} {H : List Byte} (h : 0 ≤ o ∧ o < (H.length : Int) - 4) :
    selectOffset o H = o.toNat := if_pos h

theorem selectOffset_dynamic {o : Int} {H : List Byte} (h : ¬(0 ≤ o ∧ o < (H.length : Int) - 4)) :
    selectOffset o H = (H.getD (H.length - 1) 0#8).toNat % 16 := by
  rw [selectOffset, if_neg h, BitVec.toNat_and]
  exact Nat.and_two_pow_sub_one_eq_mod _ 4

/-- Settles O38: the two branches of the selection; a fixed offset lies below the length less 4, a dynamic one is a low
nibble. -/
theorem selectedOffset : Obligations.SelectedOffset := by
  intro o H hlo hhi _
  have hsentinel : ¬((0 : Int) ≤ -1 ∧ (-1 : Int) < (H.length : Int) - 4) := by omega
  have hnibble : (H.getD (H.length - 1) 0#8).toNat % 16 < 16 := Nat.mod_lt _ (by omega)
  rw [selectOffset_dynamic hsentinel]
  by_cases h : 0 ≤ o ∧ o < (H.length : Int) - 4
  · rw [selectOffset_fixed h]
    omega
  · rw [selectOffset_dynamic h]
    omega

/-! ### The extraction (R166) -/

/-- The mask that clears the sign bit (R166). -/
theorem getLsbD_signMask (i : Nat) : (0x7F#8).getLsbD i = decide (i < 7) := by
  rcases Nat.lt_or_ge i 8 with h | h
  · interval_cases i <;> rfl
  · rw [BitVec.getLsbD_of_ge _ _ h, decide_eq_false (by omega)]

/-- The bits of four bytes in a row, the last byte holding bits 7:0. -/
theorem getLsbD_append_bytes (b0 b1 b2 b3 : Byte) (i : Nat) :
    (b0 ++ b1 ++ b2 ++ b3).getLsbD i =
      if i < 8 then b3.getLsbD i
      else if i < 16 then b2.getLsbD (i - 8)
      else if i < 24 then b1.getLsbD (i - 16)
      else b0.getLsbD (i - 24) := by
  have h16 : i - 8 < 8 ↔ i < 16 := by omega
  have h24 : i - 16 < 8 ↔ i < 24 := by omega
  rw [BitVec.getLsbD_append, BitVec.getLsbD_append, BitVec.getLsbD_append]
  simp only [Nat.sub_sub, Nat.reduceAdd, h16, h24]

/-- Masks, shifts and ors of four bytes are the low 31 bits of their concatenation: compared bit by bit. -/
theorem extract31_eq {H : List Byte} {off : Nat} {b0 b1 b2 b3 : Byte} (h0 : H[off]? = some b0)
    (h1 : H[off + 1]? = some b1) (h2 : H[off + 2]? = some b2) (h3 : H[off + 3]? = some b3) :
    extract31 H off = (b0 ++ b1 ++ b2 ++ b3).extractLsb' 0 31 := by
  have hmask (b : Byte) : b &&& 0xFF#8 = b := BitVec.and_allOnes
  simp only [extract31, List.getD_eq_getElem?_getD, h0, h1, h2, h3, Option.getD_some, hmask]
  apply BitVec.eq_of_getLsbD_eq
  intro i hi
  rw [BitVec.getLsbD_extractLsb', Nat.zero_add, getLsbD_append_bytes]
  simp only [BitVec.getLsbD_setWidth, BitVec.getLsbD_or, BitVec.getLsbD_shiftLeft, BitVec.getLsbD_and, getLsbD_signMask]
  split_ifs <;> simp (disch := omega) [decide_eq_true, decide_eq_false, BitVec.getLsbD_of_ge]

/-- Four bytes in a row as a number, the first most significant. -/
theorem toNat_append_bytes (b0 b1 b2 b3 : Byte) :
    (b0 ++ b1 ++ b2 ++ b3).toNat = b0.toNat * 2 ^ 24 + b1.toNat * 2 ^ 16 + b2.toNat * 2 ^ 8 + b3.toNat := by
  rw [BitVec.toNat_append, BitVec.toNat_append, BitVec.toNat_append, ← Nat.shiftLeft_add_eq_or_of_lt b1.isLt,
    ← Nat.shiftLeft_add_eq_or_of_lt b2.isLt, ← Nat.shiftLeft_add_eq_or_of_lt b3.isLt]
  omega

/-- Settles O39: the number of the low 31 bits is the concatenation's, the first byte less its top bit. -/
theorem extractionIsBigEndian31 : Obligations.ExtractionIsBigEndian31 := by
  intro H off b0 b1 b2 b3 h0 h1 h2 h3
  refine ⟨extract31_eq h0 h1 h2 h3, ?_⟩
  rw [extract31_eq h0 h1 h2 h3, BitVec.extractLsb'_toNat, toNat_append_bytes]
  have := b1.isLt
  have := b2.isLt
  have := b3.isLt
  omega

/-! ### The checksum digit (R169) -/

/-- What the digit at position `i` from the right adds to the total, when the loop starts with doubling as `dbl` says. -/
def weightedDigit (dbl : Bool) (num i : Nat) : Nat :=
  if (i % 2 == 0) = dbl then doubleDigits (num / 10 ^ i % 10) else num / 10 ^ i % 10

theorem weightedDigit_zero (dbl : Bool) (num : Nat) :
    weightedDigit dbl num 0 = if dbl then doubleDigits (num % 10) else num % 10 := by
  cases dbl <;> simp [weightedDigit]

/-- The next digit of a number is that digit of a tenth of it, with the doubling turned over. -/
theorem weightedDigit_succ (dbl : Bool) (num i : Nat) :
    weightedDigit dbl num (i + 1) = weightedDigit (!dbl) (num / 10) i := by
  have hparity : ((i + 1) % 2 == 0) = !(i % 2 == 0) := by
    rcases Nat.mod_two_eq_zero_or_one i with h | h <;> simp [Nat.add_mod, h]
  rw [weightedDigit, weightedDigit, hparity, Nat.pow_succ', ← Nat.div_div_eq_div_mul]
  simp

/-- The loop adds the weighted digits of the positions it passes. -/
theorem checksumTotal_eq (n num : Nat) (dbl : Bool) (total : Nat) :
    checksumTotal n num dbl total = total + ((List.range n).map (weightedDigit dbl num)).sum := by
  induction n generalizing num dbl total with
  | zero => rfl
  | succ n ih =>
    rw [checksumTotal, ih, ← weightedDigit_zero, List.range_succ_eq_map, List.map_cons, List.map_map, List.sum_cons,
      Nat.add_assoc]
    simp only [Function.comp_def, weightedDigit_succ]

theorem checksum_le_nine (code digits : Nat) : checksum code digits ≤ 9 := by
  unfold checksum
  omega

/-- Settles O41: the loop's total is the sum over the positions; the rest is arithmetic modulo 10. -/
theorem checksumDigit : Obligations.ChecksumDigit := by
  intro code digits total
  have htotal : checksumTotal digits code true 0 = total := by
    rw [checksumTotal_eq, Nat.zero_add]
    refine congrArg List.sum (List.map_congr_left fun i _ => ?_)
    simp only [weightedDigit, doubleDigits, beq_iff_eq]
  refine ⟨by rw [checksum, htotal], checksum_le_nine code digits, ?_⟩
  rw [checksum, htotal]
  omega

/-! ### The decimal string (R171, R172) -/

@[simp] theorem renderDecimal_length (value w : Nat) : (renderDecimal value w).length = w := by
  simp [renderDecimal]

/-- The character of a decimal digit (R90). -/
theorem toNat_digitChar (d : Nat) : (BitVec.ofNat 8 (0x30 + d % 10)).toNat = 0x30 + d % 10 :=
  Nat.mod_eq_of_lt (by omega)

theorem toNat_getD_renderDecimal {value w i : Nat} (h : i < w) :
    ((renderDecimal value w).getD i 0#8).toNat = 0x30 + value / 10 ^ (w - 1 - i) % 10 := by
  rw [← toNat_digitChar]
  simp [renderDecimal, h]

/-- The last character is the last digit, and those before it render a tenth. -/
theorem renderDecimal_succ_eq_concat (value w : Nat) :
    renderDecimal value (w + 1) = renderDecimal (value / 10) w ++ [BitVec.ofNat 8 (0x30 + value % 10)] := by
  have hinit : ∀ i ∈ List.range w, BitVec.ofNat 8 (0x30 + value / 10 ^ (w + 1 - 1 - i) % 10) =
      BitVec.ofNat 8 (0x30 + value / 10 / 10 ^ (w - 1 - i) % 10) := by
    intro i hi
    have hi : i < w := List.mem_range.1 hi
    rw [Nat.div_div_eq_div_mul, ← Nat.pow_succ', show w + 1 - 1 - i = w - 1 - i + 1 by omega]
  rw [renderDecimal, List.range_succ, List.map_append, List.map_congr_left hinit]
  simp [renderDecimal]

/-- The first character is the digit of the highest position, and the others render the lower ones. -/
theorem renderDecimal_succ_eq_cons (value w : Nat) :
    renderDecimal value (w + 1) = BitVec.ofNat 8 (0x30 + value / 10 ^ w % 10) :: renderDecimal value w := by
  simp [renderDecimal, List.range_succ_eq_map, Function.comp_def, Nat.sub_sub, Nat.add_comm]

/-- A string of `w` characters shows the last `w` digits alone. -/
theorem renderDecimal_mod (value w : Nat) : renderDecimal (value % 10 ^ w) w = renderDecimal value w := by
  induction w generalizing value with
  | zero => rfl
  | succ w ih =>
    rw [renderDecimal_succ_eq_concat, renderDecimal_succ_eq_concat, Nat.pow_succ', Nat.mod_mul_right_div_self,
      Nat.mod_mul_right_mod, ih]

theorem decimalValue_concat (text : List Byte) (b : Byte) :
    decimalValue (text ++ [b]) = 10 * decimalValue text + (b.toNat - 0x30) := by
  simp [decimalValue]

theorem decimalValue_renderDecimal (value w : Nat) : decimalValue (renderDecimal value w) = value % 10 ^ w := by
  induction w generalizing value with
  | zero => simp [renderDecimal, decimalValue, Nat.mod_one]
  | succ w ih =>
    rw [renderDecimal_succ_eq_concat, decimalValue_concat, ih, toNat_digitChar, Nat.pow_succ', Nat.mod_mul]
    omega

theorem hotpFormat_string (binary digits : Nat) (ck : Bool) :
    (hotpFormat binary digits ck).2 =
      renderDecimal (renderValue (binary % 10 ^ digits) digits ck) (renderWidth digits ck) := rfl

theorem hotpFormat_string_length (binary digits : Nat) (ck : Bool) :
    (hotpFormat binary digits ck).2.length = renderWidth digits ck := renderDecimal_length ..

/-- The value fits its string: the checksum digit makes both one digit longer (R171). -/
theorem renderValue_lt {code digits : Nat} (ck : Bool) (h : code < 10 ^ digits) :
    renderValue code digits ck < 10 ^ renderWidth digits ck := by
  have hck := checksum_le_nine code digits
  cases ck with
  | false => simpa [renderValue, renderWidth] using h
  | true =>
    simp only [renderValue, renderWidth, if_true, Nat.pow_succ]
    omega

/-- Settles O42: each character is a digit of the value, and the value has no digit beyond the string. -/
theorem decimalRendering : Obligations.DecimalRendering := by
  intro binary digits ck _ _
  have hfit : renderValue (binary % 10 ^ digits) digits ck < 10 ^ renderWidth digits ck :=
    renderValue_lt ck (Nat.mod_lt _ (by positivity))
  refine ⟨rfl, hotpFormat_string_length .., fun b hb => ?_, ?_, fun i hi => toNat_getD_renderDecimal hi⟩
  · obtain ⟨i, -, rfl⟩ := List.mem_map.1 hb
    rw [toNat_digitChar]
    omega
  · rw [hotpFormat_string, decimalValue_renderDecimal, Nat.mod_eq_of_lt hfit]
    rfl

/-! ### More digits (R179) -/

/-- Settles O43: the longer string is one character and the shorter one; 1000000 has a seventh digit, which only the
checksum over seven digits counts. -/
theorem moreDigitsExtendToTheLeft : Obligations.MoreDigitsExtendToTheLeft := by
  refine ⟨fun binary d _ _ => ?_, 1000000, by decide, by decide⟩
  have hcode : binary % 10 ^ (d + 1) % 10 ^ d = binary % 10 ^ d :=
    Nat.mod_mod_of_dvd _ (pow_dvd_pow 10 (Nat.le_succ d))
  refine ⟨hcode.symm, ?_⟩
  calc renderDecimal (binary % 10 ^ d) d
      = renderDecimal (binary % 10 ^ (d + 1)) d := by rw [← hcode, renderDecimal_mod]
    _ = (renderDecimal (binary % 10 ^ (d + 1)) (d + 1)).drop 1 := by
        rw [renderDecimal_succ_eq_cons, List.drop_succ_cons, List.drop_zero]

/-! ### What the results depend on (R178) -/

/-- The truncation as a function of CFG, HASH_LEN and the hash bytes: the first error of R167's tests, or the offset and
the 31-bit value. -/
def truncation (cfg hashLen : Word) (H : List Byte) : Except Err (Nat × BitVec 31) :=
  let off := selectOffset (cfgOffset cfg) H
  if cfgValid cfg = false then .error ⟨.nocfg, 0#32⟩
  else if hashLen.toNat < 1 ∨ hashMax < hashLen.toNat then .error ⟨.range, 4#32⟩
  else if hashLen.toNat < off + 4 then .error ⟨.hashrange, BitVec.ofNat 32 off⟩
  else .ok (off, extract31 H off)

/-- How the shared part of HTRUNC and HCODE goes on with what the truncation answers. -/
def afterTruncation (cmd : Instr) (s : State) (k : Nat → BitVec 31 → Host.Outcome State Fault Refusal) :
    Except Err (Nat × BitVec 31) → Host.Outcome State Fault Refusal
  | .error e => .next (raise cmd e s)
  | .ok (off, bin) => k off bin

/-- The read of the hash cannot fail: a length that passed its check lies inside HASH (R72). -/
theorem truncate_eq_afterTruncation (cmd : Instr) (s : State)
    (k : Nat → BitVec 31 → Host.Outcome State Fault Refusal) :
    truncate cmd s k = afterTruncation cmd s k (truncation s.cfg s.hashLen (hashOf s)) := by
  unfold truncate truncation
  dsimp only
  by_cases hv : cfgValid s.cfg = false
  · rw [if_pos hv, if_pos hv, afterTruncation]
  by_cases hl : s.hashLen.toNat < 1 ∨ hashMax < s.hashLen.toNat
  · rw [if_neg hv, if_neg hv, if_pos hl, if_pos hl, afterTruncation]
  have hread : s.memRead .hash 0 s.hashLen.toNat = some (hashOf s) :=
    memRead_eq_some (by simp only [Params.size]; omega)
  rw [if_neg hv, if_neg hv, if_neg hl, if_neg hl, hread]
  dsimp only
  split <;> rfl

theorem truncation_error_code_ne_ok {cfg hashLen : Word} {H : List Byte} {e : Err}
    (h : truncation cfg hashLen H = .error e) : e.code ≠ .ok := by
  unfold truncation at h
  dsimp only at h
  split_ifs at h <;> cases h <;> simp

/-- Two runs of a truncation on the same operands raise the same error or go on with the same offset and value. -/
theorem truncate_same {cmd : Instr} {s s' t t' : State} {k k' : Nat → BitVec 31 → Host.Outcome State Fault Refusal}
    (hcfg : s'.cfg = s.cfg) (hlen : s'.hashLen = s.hashLen) (hhash : hashOf s' = hashOf s)
    (h : truncate cmd s k = .next t) (h' : truncate cmd s' k' = .next t') :
    (∃ e, e.code ≠ .ok ∧ t = raise cmd e s ∧ t' = raise cmd e s') ∨
      ∃ off bin, k off bin = .next t ∧ k' off bin = .next t' := by
  rw [truncate_eq_afterTruncation] at h h'
  rw [hcfg, hlen, hhash] at h'
  cases hres : truncation s.cfg s.hashLen (hashOf s) with
  | error e =>
    rw [hres] at h h'
    exact .inl ⟨e, truncation_error_code_ne_ok hres, (Host.Outcome.next.inj h).symm, (Host.Outcome.next.inj h').symm⟩
  | ok r =>
    rw [hres] at h h'
    exact .inr ⟨r.1, r.2, h, h'⟩

/-- What R178 says of the end states of two runs of a HOTP command. -/
def SameHotpOutcome (i : Instr) (t t' : State) : Prop :=
  t'.status = t.status ∧ t'.einfo = t.einfo ∧
    (t.status = 0x80#8 →
      (i ≠ .hfmt → t'.bin = t.bin ∧ t'.toff = t.toff) ∧
      (i ≠ .htrunc → t'.code = t.code ∧ t'.outLen = t.outLen ∧
        t'.bytesAt .out 0 t'.outLen.toNat = t.bytesAt .out 0 t.outLen.toNat))

/-- Two runs that raise the same error report the same, and no success (R221). -/
theorem sameHotpOutcome_raise {e : Err} (i cmd : Instr) (s s' : State) (he : e.code ≠ .ok) :
    SameHotpOutcome i (raise cmd e s) (raise cmd e s') := by
  refine ⟨by simp, by simp, fun hok => ?_⟩
  rw [raise_status] at hok
  exact absurd hok (errStatus_ne_okStatus cmd he)

/-- The width is at most 16 whatever CFG holds: DIGITS has four bits (R37, R171). -/
theorem renderWidth_cfgDigits_le (cfg : Word) (ck : Bool) : renderWidth (cfgDigits cfg) ck ≤ 16 := by
  have hdigits : cfgDigits cfg < 16 := BitVec.isLt _
  unfold renderWidth
  split <;> omega

/-- Once a string is formatted, the bytes of OUT that OUT_LEN counts are the string (R172, R176). -/
theorem formatBin_bytesAt {s t : State} (h : formatBin s = .next t) :
    t.bytesAt .out 0 t.outLen.toNat = (hotpFormat s.bin.toNat (cfgDigits s.cfg) (cfgChecksum s.cfg)).2 := by
  obtain ⟨-, rfl⟩ := formatBin_cases h
  have hwidth := renderWidth_cfgDigits_le s.cfg (cfgChecksum s.cfg)
  rw [succeed_outLen, delivered_outLen, BitVec.toNat_ofNat, Nat.mod_eq_of_lt (by rw [hotpFormat_string_length]; omega)]
  exact bytesAt_delivered rfl rfl rfl

/-- Two runs of the formatting on the same CFG and BIN end alike (R176). -/
theorem sameHotpOutcome_formatBin {i : Instr} {s s' t t' : State} (hcfg : s'.cfg = s.cfg) (hbin : s'.bin = s.bin)
    (htoff : i ≠ .hfmt → s'.toff = s.toff) (h : formatBin s = .next t) (h' : formatBin s' = .next t') :
    SameHotpOutcome i t t' := by
  have hstring : t'.bytesAt .out 0 t'.outLen.toNat = t.bytesAt .out 0 t.outLen.toNat := by
    rw [formatBin_bytesAt h, formatBin_bytesAt h', hcfg, hbin]
  obtain ⟨-, rfl⟩ := formatBin_cases h
  obtain ⟨-, rfl⟩ := formatBin_cases h'
  refine ⟨rfl, rfl, fun _ => ⟨fun hi => ⟨hbin, htoff hi⟩, fun _ => ⟨?_, ?_, hstring⟩⟩⟩ <;> simp [hcfg, hbin]

/-- HFMT's two cases (R176). -/
theorem exec_hfmt (s : State) :
    exec .hfmt s = if cfgValid s.cfg = false then .next (raise .hfmt ⟨.nocfg, 0#32⟩ s) else formatBin s := rfl

/-- Settles O49: both runs raise the same error, or truncate to the same offset and value and format these alike. -/
theorem hotpResultsDependOnNothingElse : Obligations.HotpResultsDependOnNothingElse := by
  intro i s s' t t' hi hcfg hlen hhash hbin h h'
  show SameHotpOutcome i t t'
  simp only [List.mem_cons, List.not_mem_nil, or_false] at hi
  rcases hi with rfl | rfl | rfl
  · rw [exec_htrunc] at h h'
    obtain ⟨e, he, rfl, rfl⟩ | ⟨off, bin, hk, hk'⟩ := truncate_same hcfg hlen hhash h h'
    · exact sameHotpOutcome_raise _ _ s s' he
    · cases hk
      cases hk'
      exact ⟨rfl, rfl, fun _ => ⟨fun _ => ⟨rfl, rfl⟩, fun hne => absurd rfl hne⟩⟩
  · rw [exec_hfmt] at h h'
    rw [hcfg] at h'
    split at h
    · next hv =>
      rw [if_pos hv] at h'
      cases h
      cases h'
      exact sameHotpOutcome_raise _ _ s s' (by simp)
    · next hv =>
      rw [if_neg hv] at h'
      exact sameHotpOutcome_formatBin hcfg (hbin rfl) (fun hne => absurd rfl hne) h h'
  · rw [exec_hcode] at h h'
    obtain ⟨e, he, rfl, rfl⟩ | ⟨off, bin, hk, hk'⟩ := truncate_same hcfg hlen hhash h h'
    · exact sameHotpOutcome_raise _ _ s s' he
    · exact sameHotpOutcome_formatBin (s := s.setTruncation off bin) (s' := s'.setTruncation off bin) hcfg rfl
        (fun _ => rfl) hk hk'

end Sys2Proof.Machine
end

section
/-! The statement about a failing CFGBUILD (43_config_and_control.md R192). -/

namespace Sys2Proof.Machine

/-- A failing command that does not write OUT changes STATUS and EINFO alone (R221). -/
theorem raise_of_not_writesOut {cmd : Instr} (h : writesOut cmd = false) (e : Err) (s : State) :
    raise cmd e s = s.report (errStatus cmd e.code) e.info := by
  simp [raise, h]

/-! ### The check of the staged configuration that fails first (R190, R191) -/

theorem stagedError_of_digits {s : State} (h : stagedDigits s < 6 ∨ 8 < stagedDigits s) :
    stagedError s = some ⟨.cfgrange, 1#32⟩ := if_pos h

theorem stagedError_of_offset {s : State} (h6 : 6 ≤ stagedDigits s) (h8 : stagedDigits s ≤ 8)
    (h : stagedOffset s < -1 ∨ 15 < stagedOffset s) : stagedError s = some ⟨.cfgrange, 2#32⟩ := by
  rw [stagedError, if_neg (by omega), if_pos h]

/-! ### The failing CFGBUILD (R192) -/

/-- DONE, `K_CONFIG` and `E_CFGRANGE` (R23). -/
theorem errStatus_cfgbuild_cfgrange : errStatus .cfgbuild .cfgrange = 0x98#8 := rfl

/-- A check that fails ends CFGBUILD with its error (R190). -/
theorem exec_cfgbuild_of_stagedError {s : State} {e : Err} (h : stagedError s = some e) :
    exec .cfgbuild s = .next (raise .cfgbuild e s) := by
  show execCfgbuild s = _
  rw [execCfgbuild, h]

theorem exec_cfgbuild_cfgrange {s : State} {info : Word} (h : stagedError s = some ⟨.cfgrange, info⟩) :
    exec .cfgbuild s = .next (s.report 0x98#8 info) := by
  have hwrites : writesOut .cfgbuild = false := rfl
  rw [exec_cfgbuild_of_stagedError h, raise_of_not_writesOut hwrites, errStatus_cfgbuild_cfgrange]

/-- Settles O51: the first check that fails decides EINFO, and CFGBUILD does not write OUT. -/
theorem failedCfgbuildChangesNothing : Obligations.FailedCfgbuildChangesNothing := fun _ =>
  ⟨fun hdigits => exec_cfgbuild_cfgrange (stagedError_of_digits hdigits),
    fun h6 h8 hoffset => exec_cfgbuild_cfgrange (stagedError_of_offset h6 h8 hoffset)⟩

end Sys2Proof.Machine
end

section
/-! The statement about an illegal command word (60_exceptions.md R219), and that the decoder accepts a command's own
word alone (30_encoding.md R82). -/

namespace Sys2Proof.Machine

/-! ### A command word from its fields (R80) -/

/-- The four fields cover the word. -/
theorem append_fields (w : Word) : reservedField w ++ shapeField w ++ varField w ++ opField w = w := by
  unfold reservedField shapeField varField opField
  rw [BitVec.extractLsb'_append_extractLsb'_eq_extractLsb' (show 7 = 5 + 2 from rfl),
    BitVec.extractLsb'_append_extractLsb'_eq_extractLsb' (show 5 = 4 + 1 from rfl),
    BitVec.extractLsb'_append_extractLsb'_eq_extractLsb' (show 4 = 0 + 4 from rfl), BitVec.extractLsb'_eq_self]

theorem cmdWord_fields {w : Word} (h : reservedField w = 0#25) :
    cmdWord (shapeField w) (varField w) (opField w) = w := by
  rw [cmdWord, ← h, append_fields]

theorem varBit_variantOf (b : BitVec 1) : varBit (variantOf b) = b := by
  revert b
  decide

/-! ### What a word that decodes looks like (R82) -/

theorem decodeShape_eq_ok {f i c : Variant → Instr} {w : Word} {cmd : Instr} (h : decodeShape f i c w = .ok cmd) :
    (shapeField w = 0#2 ∧ cmd = f (variantOf (varField w))) ∨
      (shapeField w = 1#2 ∧ cmd = i (variantOf (varField w))) ∨
      (shapeField w = 2#2 ∧ cmd = c (variantOf (varField w))) := by
  unfold decodeShape at h
  split_ifs at h with h0 h1 h2
  · exact .inl ⟨h0, (Except.ok.inj h).symm⟩
  · exact .inr (.inl ⟨h1, (Except.ok.inj h).symm⟩)
  · exact .inr (.inr ⟨h2, (Except.ok.inj h).symm⟩)

theorem decodePlain_eq_ok {i cmd : Instr} {w : Word} (h : decodePlain i w = .ok cmd) :
    varField w = 0#1 ∧ shapeField w = 0#2 ∧ cmd = i := by
  unfold decodePlain at h
  split_ifs at h with hzero
  exact ⟨hzero.1, hzero.2, (Except.ok.inj h).symm⟩

/-- A Base32 command's word, when the shapes of the OP are encoded as R83 says. -/
theorem encode_of_decodeShape {f i c : Variant → Instr} {w : Word} {cmd : Instr}
    (hf : ∀ v, encode (f v) = cmdWord 0#2 (varBit v) (opField w))
    (hi : ∀ v, encode (i v) = cmdWord 1#2 (varBit v) (opField w))
    (hc : ∀ v, encode (c v) = cmdWord 2#2 (varBit v) (opField w)) (h : decodeShape f i c w = .ok cmd) :
    encode cmd = cmdWord (shapeField w) (varField w) (opField w) := by
  obtain ⟨hs, rfl⟩ | ⟨hs, rfl⟩ | ⟨hs, rfl⟩ := decodeShape_eq_ok h
  · rw [hf, hs, varBit_variantOf]
  · rw [hi, hs, varBit_variantOf]
  · rw [hc, hs, varBit_variantOf]

theorem encode_of_decodePlain {i cmd : Instr} {w : Word} (hi : encode i = cmdWord 0#2 0#1 (opField w))
    (h : decodePlain i w = .ok cmd) : encode cmd = cmdWord (shapeField w) (varField w) (opField w) := by
  obtain ⟨hvar, hshape, rfl⟩ := decodePlain_eq_ok h
  rw [hi, hvar, hshape]

/-- A word that decodes to a command is that command's word. -/
theorem encode_of_decodeCmd {w : Word} {cmd : Instr} (h : decodeCmd w = .ok cmd) : encode cmd = w := by
  unfold decodeCmd at h
  split_ifs at h with hreserved h1 h2 h3 h4 h5 h6
  all_goals rw [← cmdWord_fields (not_not.mp hreserved)]
  · exact encode_of_decodeShape (by simp [encode, h1]) (by simp [encode, h1]) (by simp [encode, h1]) h
  · exact encode_of_decodeShape (by simp [encode, h2]) (by simp [encode, h2]) (by simp [encode, h2]) h
  · exact encode_of_decodePlain (by rw [h3, encode]) h
  · exact encode_of_decodePlain (by rw [h4, encode]) h
  · exact encode_of_decodePlain (by rw [h5, encode]) h
  · exact encode_of_decodePlain (by rw [h6, encode]) h

/-- A word that is no command's word does not decode (R84). -/
theorem decodeCmd_illegal {w : Word} (h : ∀ i, w ≠ encode i) : ∃ r, decodeCmd w = .error r := by
  cases hd : decodeCmd w with
  | ok i => exact absurd (encode_of_decodeCmd hd).symm (h i)
  | error r => exact ⟨r, rfl⟩

/-! ### The illegal command word (R219) -/

/-- DONE, `K_USAGE` and `E_ILLCMD` (R23). -/
theorem illegalStatus_eq : illegalStatus = 0xE1#8 := rfl

/-- The write of a word to CMD that does not decode raises `E_ILLCMD` (R84). -/
theorem step_illegal {s : State} {w : Word} {r : Reject} {rest : List Event}
    (h : s.port = .op (.regWrite 0#32 w) :: rest) (hd : decodeCmd w = .error r) :
    step s = .next (raiseIllegal { s with port := rest }) := by
  rw [step_takes h]
  show runCommandWord w _ = _
  rw [runCommandWord, hd]

/-- Settles O5: such a word does not decode, and `E_ILLCMD` is reported in STATUS and EINFO alone. -/
theorem illegalWordReportsAndChangesNothingElse : Obligations.IllegalWordReportsAndChangesNothingElse := by
  intro s w rest hport hword
  obtain ⟨r, hd⟩ := decodeCmd_illegal hword
  rw [step_illegal hport hd, raiseIllegal, illegalStatus_eq]
  rfl

end Sys2Proof.Machine
end

section
/-! The statement about what each command does straight after reset (70_reset_and_hazards.md R247). -/

namespace Sys2Proof.Machine

/-! ### A Base32 command on an empty range (R114 with N = 0, R143 with T = []) -/

/-- A Base32 command is `EncodeProc` or `DecodeProc` in its variant and shape (R115, R145). -/
theorem exec_base32 {i : Instr} (h : isBase32 i = true) :
    ∃ v sh, (∀ s, exec i s = encodeProc i v sh s) ∨ ∀ s, exec i s = decodeProc i v sh s := by
  cases i with
  | b32encF v => exact ⟨v, .F, .inl fun _ => rfl⟩
  | b32encI v => exact ⟨v, .I, .inl fun _ => rfl⟩
  | b32encC v => exact ⟨v, .C, .inl fun _ => rfl⟩
  | b32decF v => exact ⟨v, .F, .inr fun _ => rfl⟩
  | b32decI v => exact ⟨v, .I, .inr fun _ => rfl⟩
  | b32decC v => exact ⟨v, .C, .inr fun _ => rfl⟩
  | htrunc | hfmt | hcode | cfgbuild => cases h

theorem encodeCore_nil (v : Variant) : encodeCore v [] = [] := rfl

theorem encLen_zero : encLen 0 = 0 := rfl

theorem bytesAt_zero (s : State) (sp : Space) (off : Nat) : s.bytesAt sp off 0 = [] := rfl

/-- The empty result fits whatever the capacity is (R115 step 3, R145 step 3). -/
theorem capacityError_zero (sh : Shape) (s : State) : capacityError sh 0 s = none :=
  capacityError_none.2 (Nat.zero_le _)

theorem encodeProc_emptyRange {cmd : Instr} {v : Variant} {sh : Shape} {s : State} (hr : rangeError sh s = none)
    (h0 : rangeLen s = 0) : encodeProc cmd v sh s = .next (advance sh (s.delivered [])).succeed := by
  have he : encodeError sh s = none := by
    rw [encodeError_none, h0, encLen_zero]
    exact ⟨hr, Nat.zero_le _, capacityError_zero sh s⟩
  have htext : encodeCore v (s.bytesAt .inp s.inPos.toNat (rangeLen s)) = [] := by
    rw [h0, bytesAt_zero, encodeCore_nil]
  rw [encodeProc_commits he (by simp [htext]), htext]

theorem decodeProc_emptyRange {cmd : Instr} {v : Variant} {sh : Shape} {s : State} (hr : rangeError sh s = none)
    (h0 : rangeLen s = 0) : decodeProc cmd v sh s = .next (advance sh (s.delivered [])).succeed := by
  have htext : decodeCore v (s.bytesAt .inp s.inPos.toNat (rangeLen s)) = .ok [] := by
    rw [h0, bytesAt_zero, decodeCore_nil]
  exact decodeProc_commits hr htext (capacityError_zero sh s)

/-- On an empty range in IN, with OUT_CAP inside OUT, every Base32 command delivers the empty result. -/
theorem exec_base32_emptyRange {i : Instr} {s : State} (hb : isBase32 i = true) (hr : RangeOk s)
    (hcap : s.outCap.toNat ≤ s.par.outSize) (h0 : rangeLen s = 0) :
    ∃ sh, exec i s = .next (advance sh (s.delivered [])).succeed := by
  obtain ⟨v, sh, hexec⟩ := exec_base32 hb
  have hrange : rangeError sh s = none := rangeError_none.2 ⟨hr.1, hr.2, fun _ => hcap⟩
  rcases hexec with henc | hdec
  · exact ⟨sh, (henc s).trans (encodeProc_emptyRange hrange h0)⟩
  · exact ⟨sh, (hdec s).trans (decodeProc_emptyRange hrange h0)⟩

/-- The empty result changes OUT_LEN alone (R28, R71). -/
theorem delivered_nil (s : State) : s.delivered [] = { s with outLen := 0#32 } := rfl

/-! ### A HOTP command with no configuration (R161) -/

/-- DONE, `K_USAGE` and `E_NOCFG` for every command (R23, R216). -/
theorem errStatus_nocfg (cmd : Instr) : errStatus cmd .nocfg = 0xE9#8 := by
  show statusWord .usage .nocfg = 0xE9#8
  decide

theorem truncate_noCfg {cmd : Instr} {s : State} {k : Nat → BitVec 31 → Host.Outcome State Fault Refusal}
    (h : cfgValid s.cfg = false) : truncate cmd s k = .next (raise cmd ⟨.nocfg, 0#32⟩ s) := if_pos h

theorem exec_hotp_noCfg {i : Instr} {s : State} (hi : i ∈ [Instr.htrunc, .hfmt, .hcode])
    (h : cfgValid s.cfg = false) : exec i s = .next (raise i ⟨.nocfg, 0#32⟩ s) := by
  simp only [List.mem_cons, List.not_mem_nil, or_false] at hi
  rcases hi with rfl | rfl | rfl
  · rw [exec_htrunc, truncate_noCfg h]
  · rw [exec_hfmt, if_pos h]
  · rw [exec_hcode, truncate_noCfg h]

/-! ### DONE after every command (R23) -/

@[simp] theorem statusDone_succeed (s : State) : statusDone s.succeed.status = true := statusDone_okStatus

theorem statusDone_formatBin {s t : State} (h : formatBin s = .next t) : statusDone t.status = true := by
  obtain ⟨-, rfl⟩ := formatBin_cases h
  exact statusDone_succeed _

/-- Every way a command ends reports: an error, or success. -/
theorem statusDone_exec {i : Instr} {s t : State} (h : exec i s = .next t) : statusDone t.status = true := by
  cases exec_ended h with
  | failed e _ _ ht => rw [ht, raise_status, statusDone_errStatus]
  | base32 _ _ _ _ _ ht => rw [ht, statusDone_succeed]
  | truncated _ _ _ ht => rw [ht, statusDone_succeed]
  | formatted _ _ hf => exact statusDone_formatBin hf
  | coded _ _ _ _ hf => exact statusDone_formatBin hf
  | built _ _ ht => rw [ht, statusDone_succeed]

/-! ### Straight after reset (R247) -/

/-- The range is IN[0,0), which lies inside every buffer (R247). -/
theorem rangeOk_afterReset (par : Params) (stream draw : Nat) (port : List Event) (trace : List ReadValue) :
    RangeOk (State.afterReset par stream draw port trace) :=
  ⟨le_rfl, Nat.zero_le _⟩

/-- CFG is 0, so VALID is (R37). -/
theorem cfgValid_afterReset (par : Params) (stream draw : Nat) (port : List Event) (trace : List ReadValue) :
    cfgValid (State.afterReset par stream draw port trace).cfg = false := by
  show cfgValid 0#32 = false
  decide

/-- The staged digits are 0, below 6 (R195). -/
theorem stagedError_afterReset (par : Params) (stream draw : Nat) (port : List Event) (trace : List ReadValue) :
    stagedError (State.afterReset par stream draw port trace) = some ⟨.cfgrange, 1#32⟩ :=
  stagedError_of_digits (.inl (show (0#32).toInt < 6 by decide))

/-- Settles O14: the range is empty, no configuration stands, and the staged digits are out of range. -/
theorem commandsStraightAfterReset : Obligations.CommandsStraightAfterReset := by
  refine ⟨fun par stream draw port trace => ?_, fun _ _ _ => statusDone_exec⟩
  refine ⟨rfl, fun i hb => ?_, fun i hi => ?_, ?_⟩
  · obtain ⟨sh, hexec⟩ := exec_base32_emptyRange hb (rangeOk_afterReset par stream draw port trace) (Nat.zero_le _) rfl
    rw [delivered_nil] at hexec
    exact ⟨_, hexec, ⟨rfl, rfl⟩, by rw [succeed_outLen, advance_outLen], by rw [succeed_out, advance_out]⟩
  · exact ⟨_, exec_hotp_noCfg hi (cfgValid_afterReset ..), by rw [raise_status, errStatus_nocfg], raise_einfo ..⟩
  · exact ⟨_, exec_cfgbuild_cfgrange (stagedError_afterReset ..), rfl, rfl, rfl⟩

end Sys2Proof.Machine
end

section
/-! The statements about the command word: the decoder inverts the encoder (30_encoding.md R82, R83), the opcode map's
masks and matches (R83), and the sample words (95_test_vectors.md section 8). -/

namespace Sys2Proof.Machine

/-! ### The decoder inverts the encoder (R82) -/

/-- Every command's word decodes to it: one evaluation for each of the sixteen words. -/
theorem decodeCmd_encode (i : Instr) : decodeCmd (encode i) = .ok i := by
  cases i with
  | b32encF v | b32encI v | b32encC v | b32decF v | b32decI v | b32decC v => cases v <;> rfl
  | htrunc | hfmt | hcode | cfgbuild => rfl

theorem decodeCmd_eq_ok_iff {w : Word} {i : Instr} : decodeCmd w = .ok i ↔ w = encode i :=
  ⟨fun h => (encode_of_decodeCmd h).symm, fun h => h ▸ decodeCmd_encode i⟩

/-- Settles O1: a word that decodes has the fields of the command's word, and the sixteen words decode to their
commands. -/
theorem wordsDecodeExactlyAsEncoded : Obligations.WordsDecodeExactlyAsEncoded :=
  fun _ _ => decodeCmd_eq_ok_iff

theorem encode_injective : Function.Injective encode := fun i j h =>
  Except.ok.inj (by rw [← decodeCmd_encode i, h, decodeCmd_encode])

/-! ### The opcode map (R83) -/

/-- A command's word matches its own row. -/
theorem encode_selects (i : Instr) : encode i &&& (rowOf i).mask = (rowOf i).pat := by
  cases i with
  | b32encF v | b32encI v | b32encC v | b32decF v | b32decI v | b32decC v => cases v <;> decide
  | htrunc | hfmt | hcode | cfgbuild => decide

/-- A word that matches a Base32 row is the match with VAR, the one bit the mask leaves free, 0 or 1. -/
theorem eq_or_eq_of_and_base32Mask {w p : Word} (h : w &&& 0xFFFFFFEF#32 = p) : w = p ∨ w = p ||| 0x10#32 := by
  have hvar : w &&& 0x10#32 = if w.getLsbD 4 then 0x10#32 else 0#32 := BitVec.and_twoPow w 4
  have hsplit : w = w &&& 0xFFFFFFEF#32 ||| w &&& 0x10#32 := by
    rw [← BitVec.and_or_distrib_left, show 0xFFFFFFEF#32 ||| 0x10#32 = BitVec.allOnes 32 by decide,
      BitVec.and_allOnes]
  rw [h, hvar] at hsplit
  split_ifs at hsplit
  · exact .inr hsplit
  · exact .inl (by simpa using hsplit)

/-- A word that matches a Base32 row is the word of the row's command in one of the two variants. -/
theorem eq_encode_of_base32Row {f : Variant → Instr} {w p : Word} (hstd : encode (f .std) = p)
    (hhex : encode (f .hex) = p ||| 0x10#32) (h : w &&& 0xFFFFFFEF#32 = p) : ∃ v, w = encode (f v) := by
  obtain hw | hw := eq_or_eq_of_and_base32Mask h
  · exact ⟨.std, hw.trans hstd.symm⟩
  · exact ⟨.hex, hw.trans hhex.symm⟩

/-- The mask of a plain row leaves no bit free. -/
theorem eq_of_and_plainMask {w p : Word} (h : w &&& 0xFFFFFFFF#32 = p) : w = p :=
  BitVec.and_allOnes.symm.trans h

/-- Only the word of a command of the row matches it. -/
theorem eq_encode_of_selects {r : Row} {w : Word} (hr : r ∈ opcodeMap) (h : w &&& r.mask = r.pat) :
    ∃ i, w = encode i ∧ r = rowOf i := by
  simp only [opcodeMap, List.mem_cons, List.not_mem_nil, or_false] at hr
  rcases hr with rfl | rfl | rfl | rfl | rfl | rfl | rfl | rfl | rfl | rfl
  · obtain ⟨v, hw⟩ := eq_encode_of_base32Row (f := .b32encF) (by decide) (by decide) h
    exact ⟨_, hw, rfl⟩
  · obtain ⟨v, hw⟩ := eq_encode_of_base32Row (f := .b32encI) (by decide) (by decide) h
    exact ⟨_, hw, rfl⟩
  · obtain ⟨v, hw⟩ := eq_encode_of_base32Row (f := .b32encC) (by decide) (by decide) h
    exact ⟨_, hw, rfl⟩
  · obtain ⟨v, hw⟩ := eq_encode_of_base32Row (f := .b32decF) (by decide) (by decide) h
    exact ⟨_, hw, rfl⟩
  · obtain ⟨v, hw⟩ := eq_encode_of_base32Row (f := .b32decI) (by decide) (by decide) h
    exact ⟨_, hw, rfl⟩
  · obtain ⟨v, hw⟩ := eq_encode_of_base32Row (f := .b32decC) (by decide) (by decide) h
    exact ⟨_, hw, rfl⟩
  · exact ⟨.htrunc, (eq_of_and_plainMask h).trans (by decide), rfl⟩
  · exact ⟨.hfmt, (eq_of_and_plainMask h).trans (by decide), rfl⟩
  · exact ⟨.hcode, (eq_of_and_plainMask h).trans (by decide), rfl⟩
  · exact ⟨.cfgbuild, (eq_of_and_plainMask h).trans (by decide), rfl⟩

/-- Settles O2: a row is selected by the words of its commands alone, and these are the words that decode. -/
theorem opcodeMapDecidesEveryWord : Obligations.OpcodeMapDecidesEveryWord := by
  intro w
  cases hd : decodeCmd w with
  | ok i =>
    obtain rfl := decodeCmd_eq_ok_iff.1 hd
    refine .inl ⟨i, rfl, encode_selects i, fun r hr hsel => ?_⟩
    obtain ⟨j, hj, rfl⟩ := eq_encode_of_selects hr hsel
    rw [encode_injective hj]
  | error e =>
    refine .inr ⟨⟨e, rfl⟩, fun r hr hsel => ?_⟩
    obtain ⟨j, rfl, -⟩ := eq_encode_of_selects hr hsel
    rw [decodeCmd_encode] at hd
    cases hd

/-! ### Sample words (95_test_vectors.md section 8) -/

/-- Settles O3: each legal word is its command's, and each illegal word has a field of its own out of range. -/
theorem sampleWordsDecode : Obligations.SampleWordsDecode :=
  ⟨decodeCmd_encode (.b32encF .std), decodeCmd_encode (.b32encI .hex), decodeCmd_encode (.b32encC .std),
    decodeCmd_encode (.b32decF .hex), decodeCmd_encode (.b32decI .std), decodeCmd_encode (.b32decC .hex),
    decodeCmd_encode .htrunc, decodeCmd_encode .hfmt, decodeCmd_encode .hcode, decodeCmd_encode .cfgbuild,
    rfl, rfl, rfl, rfl⟩

end Sys2Proof.Machine
end

section
/-! The statements about how a command ends: the effect of a failure (60_exceptions.md R221), the codes of each command
(R225), and the failures without a configuration (42_hotp_truncate_format.md R161). -/

namespace Sys2Proof.Machine

/-! ### What no command writes (R51) -/

/-- Whatever way a command ends, it leaves the operands, IN, HASH and the host's side. -/
theorem exec_sameOperands_sameHostSide {i : Instr} {s t : State} (h : exec i s = .next t) :
    SameOperands s t ∧ SameHostSide s t := by
  cases exec_ended h with
  | failed e _ _ ht => simp [ht, SameOperands, SameHostSide]
  | base32 sh bytes _ _ _ ht => simp [ht, SameOperands, SameHostSide]
  | truncated off bin _ ht => simp [ht, SameOperands, SameHostSide]
  | formatted _ _ hf => obtain ⟨-, rfl⟩ := formatBin_cases hf; simp [SameOperands, SameHostSide]
  | coded off bin _ _ hf => obtain ⟨-, rfl⟩ := formatBin_cases hf; simp [SameOperands, SameHostSide]
  | built _ _ ht => simp [ht, SameOperands, SameHostSide]

theorem exec_sameOperands {i : Instr} {s t : State} (h : exec i s = .next t) : SameOperands s t :=
  (exec_sameOperands_sameHostSide h).1

theorem exec_sameHostSide {i : Instr} {s t : State} (h : exec i s = .next t) : SameHostSide s t :=
  (exec_sameOperands_sameHostSide h).2

/-! ### The effect of a failure (R221) -/

theorem writesOut_eq_false_iff {i : Instr} : writesOut i = false ↔ i = .htrunc ∨ i = .cfgbuild := by
  cases i <;> simp [writesOut]

theorem writesOut_eq_true_iff {i : Instr} : writesOut i = true ↔ i ≠ .htrunc ∧ i ≠ .cfgbuild := by
  cases i <;> simp [writesOut]

/-- What an error leaves of the registers and buffers, whatever the command. -/
theorem raise_frame (cmd : Instr) (e : Err) (s : State) :
    (raise cmd e s).inPos = s.inPos ∧ SameOperands s (raise cmd e s) ∧ SameHotpResults s (raise cmd e s) ∧
      (raise cmd e s).cfg = s.cfg ∧ SameHostSide s (raise cmd e s) := by
  simp [SameOperands, SameHotpResults, SameHostSide]

/-- What an error reports (R221). -/
theorem exists_reported {o : Host.Outcome State Fault Refusal} {cmd : Instr} {e : Err} {s : State} {st : BitVec 8}
    (ho : o = .next (raise cmd e s)) (hst : errStatus cmd e.code = st) :
    ∃ t, o = .next t ∧ t.status = st ∧ t.einfo = e.info :=
  ⟨_, ho, (raise_status ..).trans hst, raise_einfo ..⟩

/-- A failing command that does not write OUT leaves it. -/
theorem raise_keeps_out {cmd : Instr} (h : cmd = .htrunc ∨ cmd = .cfgbuild) (e : Err) (s : State) :
    (raise cmd e s).outLen = s.outLen ∧ (raise cmd e s).out = s.out := by
  rw [raise_of_not_writesOut (writesOut_eq_false_iff.2 h)]
  exact ⟨rfl, rfl⟩

/-- A failing command that writes OUT leaves none of its bytes: each is a free value of the draw it takes. -/
theorem raise_loses_out {cmd : Instr} (h : writesOut cmd = true) (e : Err) (s : State) :
    (raise cmd e s).outLen = 0#32 ∧
      ∀ off, (raise cmd e s).byteAt .out off = Config.freeByte s.stream s.draws .out off := by
  refine ⟨by rw [raise_outLen, if_pos h], fun off => ?_⟩
  rw [State.byteAt, State.buf, raise_out, if_pos h, raise_stream]
  rfl

/-! ### How a command ends: an error, or success (R23) -/

theorem succeeded_succeed (s : State) : Succeeded s.succeed := ⟨rfl, rfl⟩

theorem succeeded_formatBin {s t : State} (h : formatBin s = .next t) : Succeeded t := by
  obtain ⟨-, rfl⟩ := formatBin_cases h
  exact succeeded_succeed _

/-- A command raises an error of a code it can produce, or reports success. -/
theorem exec_raised_or_succeeded {i : Instr} {s t : State} (h : exec i s = .next t) :
    (∃ e : Err, e.code ≠ .ok ∧ e.code.toBits ∈ possibleCodes i ∧ t = raise i e s) ∨ Succeeded t := by
  cases exec_ended h with
  | failed e hne hcode ht => exact .inl ⟨e, hne, hcode, ht⟩
  | base32 _ _ _ _ _ ht => exact .inr (ht ▸ succeeded_succeed _)
  | truncated _ _ _ ht => exact .inr (ht ▸ succeeded_succeed _)
  | formatted _ _ hf => exact .inr (succeeded_formatBin hf)
  | coded _ _ _ _ hf => exact .inr (succeeded_formatBin hf)
  | built _ _ ht => exact .inr (ht ▸ succeeded_succeed _)

theorem statusCode_of_succeeded {t : State} (h : Succeeded t) : statusCode t.status = 0#4 := by
  rw [h.1]
  rfl

/-- An error's code is never 0 (R215). -/
theorem statusCode_raise_ne_zero (cmd : Instr) {e : Err} (s : State) (he : e.code ≠ .ok) :
    statusCode (raise cmd e s).status ≠ 0#4 := by
  rw [raise_status, statusCode_errStatus]
  exact fun h => he (ErrCode.toBits_eq_zero.1 h)

/-- A command that ends with a non-zero ECODE raised an error. -/
theorem exec_failed {i : Instr} {s t : State} (h : exec i s = .next t) (hc : statusCode t.status ≠ 0#4) :
    ∃ e : Err, e.code ≠ .ok ∧ t = raise i e s := by
  obtain ⟨e, hne, -, ht⟩ | hok := exec_raised_or_succeeded h
  · exact ⟨e, hne, ht⟩
  · exact absurd (statusCode_of_succeeded hok) hc

/-- Settles O53: such a command raised an error, which writes STATUS and EINFO, and OUT for the commands that write it. -/
theorem failureEffect : Obligations.FailureEffect := by
  intro i s t h hc
  obtain ⟨e, -, rfl⟩ := exec_failed h hc
  obtain ⟨hpos, hops, hres, hcfg, hhost⟩ := raise_frame i e s
  exact ⟨hpos, hops, hres, hcfg, hhost, fun h1 h2 => raise_loses_out (writesOut_eq_true_iff.2 ⟨h1, h2⟩) e s,
    fun hi => raise_keeps_out hi e s⟩

/-- Settles O48: the three commands raise `E_NOCFG`. -/
theorem noConfigurationNoCode : Obligations.NoConfigurationNoCode := by
  intro s i hi hv
  exact ⟨_, exec_hotp_noCfg hi hv, by rw [raise_status, errStatus_nocfg], raise_einfo .., raise_frame ..⟩

/-! ### The codes (R225) -/

theorem zero_mem_possibleCodes (i : Instr) : 0#4 ∈ possibleCodes i := by
  cases i <;> simp [possibleCodes]

/-- Settles O55: an error is of a code of the command, and every command can succeed. -/
theorem possibleErrorCodes : Obligations.PossibleErrorCodes := by
  intro i s t h
  obtain ⟨e, -, hcode, rfl⟩ | hok := exec_raised_or_succeeded h
  · rwa [raise_status, statusCode_errStatus]
  · rw [statusCode_of_succeeded hok]
    exact zero_mem_possibleCodes i

end Sys2Proof.Machine
end

section
/-! The statements about Base32 encode as a command: the shape of the text (40_base32_encode.md section 4), completion with
the frame (section 3), the failures for want of room (R115, R116), and the range checks it shares with decode (R218). -/

namespace Sys2Proof.Machine

/-! ### The shape of an encoded text (section 4) -/

/-- The pads that complete a tail of `r` bytes (R112). -/
def padCount (r : Nat) : Nat := [0, 6, 4, 3, 1].getD r 0

theorem padCount_eq {r : Nat} (h0 : 0 < r) (h5 : r < 5) : padCount r = 8 - tailSyms r := by
  interval_cases r <;> rfl

/-- A tail is symbols and then its pads, of the same indices in both alphabets. -/
theorem encodeTail_eq_map {R : List Byte} (h5 : R.length < 5) :
    ∃ K : List (BitVec 5), ∀ v, encodeTail v R = K.map (alpha v) ++ List.replicate (padCount R.length) padByte := by
  by_cases h0 : R.length = 0
  · exact ⟨[], fun v => by rw [encodeTail, if_pos h0, h0]; rfl⟩
  · refine ⟨(List.range (tailSyms R.length)).map (symSlice (byteWord R)), fun v => ?_⟩
    rw [encodeTail, if_neg h0, groupSyms_eq_map, padCount_eq (Nat.pos_of_ne_zero h0) h5]

/-- A text is symbols and then the pads of its tail, of the same indices in both alphabets. -/
theorem encodeCore_eq_map (S : List Byte) :
    ∃ K : List (BitVec 5), ∀ v,
      encodeCore v S = K.map (alpha v) ++ List.replicate (padCount (S.length % 5)) padByte := by
  have hrest : (S.drop (5 * (S.length / 5))).length = S.length % 5 := by
    rw [List.length_drop]
    omega
  obtain ⟨K, hK⟩ := encodeGroups_eq_map (S.length / 5) S
  obtain ⟨K', hK'⟩ := encodeTail_eq_map (R := S.drop (5 * (S.length / 5))) (by omega)
  refine ⟨K ++ K', fun v => ?_⟩
  rw [encodeCore, hK, hK', hrest, List.map_append, List.append_assoc]

/-- Settles O19: the groups and the tail are symbols of indices that do not depend on the alphabet; the length is that of
whole groups. -/
theorem encodedTextShape : Obligations.EncodedTextShape := by
  refine ⟨fun v S => ?_, fun v S => ?_, fun S => ?_⟩
  · obtain ⟨K, hK⟩ := encodeCore_eq_map S
    exact ⟨K, hK v⟩
  · rw [encodeCore_length]
    exact Nat.dvd_mul_right 8 _
  · obtain ⟨K, hK⟩ := encodeCore_eq_map S
    exact ⟨K, _, hK .std, hK .hex⟩

/-! ### What a Base32 command that completes leaves -/

theorem admitted_iff {p : Params} :
    p.admitted = true ↔ 16 ≤ p.inSize ∧ p.inSize < 2 ^ 32 ∧ 16 ≤ p.outSize ∧ p.outSize < 2 ^ 32 := by
  simp only [Params.admitted, Bool.and_eq_true, decide_eq_true_eq, and_assoc]

/-- Bytes written to OUT from offset 0 with their number in OUT_LEN are delivered, when the number fits 32 bits. -/
theorem delivered_of_writeList {s t : State} {bytes : List Byte}
    (hm : t.out.mem = Memory.writeList s.out.mem 0 bytes) (hd : t.out.draw = s.out.draw) (hs : t.stream = s.stream)
    (hn : t.outLen = BitVec.ofNat 32 bytes.length) (hl : bytes.length < 2 ^ 32) : Delivered s t bytes := by
  refine ⟨?_, bytesAt_delivered hm hd hs, fun off hoff => ?_⟩
  · rw [hn, BitVec.toNat_ofNat, Nat.mod_eq_of_lt hl]
  · rw [byteAt_delivered hm hd hs, if_neg (by omega)]

/-- Success, the bytes in OUT, IN_POS at `pos`, and nothing else changed (section 3; 41_base32_decode.md section 5). -/
def Base32Completed (s t : State) (bytes : List Byte) (pos : Word) : Prop :=
  Succeeded t ∧ Delivered s t bytes ∧ t.inPos = pos ∧ SameOperands s t ∧ SameHotpResults s t ∧ t.cfg = s.cfg ∧
    SameHostSide s t

/-- The committing step of a Base32 command (R115 step 4, R145 step 4). -/
theorem base32Completed_commit (sh : Shape) (s : State) {bytes : List Byte} (hl : bytes.length < 2 ^ 32) :
    Base32Completed s (advance sh (s.delivered bytes)).succeed bytes (if sh = .C then s.inLimit else s.inPos) := by
  refine ⟨succeeded_succeed _, ?_, by rw [succeed_inPos, advance_inPos]; rfl, ?_, ?_, ?_, ?_⟩
  · exact delivered_of_writeList (by simp) (by simp) (by simp) (by simp) hl
  · simp [SameOperands]
  · simp [SameHotpResults]
  · simp
  · simp [SameHostSide]

/-- An encode command whose checks pass and whose text fits OUT completes with the encoding of its input. -/
theorem encodeProc_completes {cmd : Instr} {v : Variant} {sh : Shape} {s : State} (he : encodeError sh s = none)
    (hfit : encLen (rangeLen s) ≤ s.par.outSize) :
    ∃ t, encodeProc cmd v sh s = .next t ∧
      Base32Completed s t (encodeCore v (inputOf s)) (if sh = .C then s.inLimit else s.inPos) := by
  have hlen : (encodeCore v (inputOf s)).length = encLen (rangeLen s) := by rw [encodeCore_length, inputOf_length]
  have hguard : encLen (rangeLen s) ≤ lenMax := (encodeError_none.1 he).2.1
  have h32 : (encodeCore v (inputOf s)).length < 2 ^ 32 := by
    unfold lenMax at hguard
    omega
  exact ⟨_, encodeProc_commits he (hlen.trans_le hfit), base32Completed_commit sh s h32⟩

/-! ### Completion (section 3) -/

theorem rangeError_of_rangeOk {sh : Shape} {s : State} (hr : RangeOk s)
    (hc : sh = .I → s.outCap.toNat ≤ s.par.outSize) : rangeError sh s = none :=
  rangeError_none.2 ⟨hr.1, hr.2, hc⟩

/-- In the shapes F and C the checks pass when the range is inside IN and the text fits OUT. -/
theorem encodeError_none_of_fits {sh : Shape} {s : State} (hsh : sh ≠ .I) (hp : s.par.admitted = true) (hr : RangeOk s)
    (hfit : encLen (rangeLen s) ≤ s.par.outSize) : encodeError sh s = none := by
  obtain ⟨-, -, -, hout⟩ := admitted_iff.1 hp
  refine encodeError_none.2 ⟨rangeError_of_rangeOk hr fun h => absurd h hsh, ?_, capacityError_none.2 ?_⟩
  · unfold lenMax
    omega
  · rwa [if_neg hsh]

/-- Settles O20: the checks of the shape F pass, and it leaves IN_POS. -/
theorem encodeFreshDelivers : Obligations.EncodeFreshDelivers := fun _ _ hp hr hfit =>
  encodeProc_completes (sh := .F) (encodeError_none_of_fits (by decide) hp hr hfit) hfit

/-- Settles O21: OUT_CAP has 32 bits, so a text that fits it passes the overflow guard too. -/
theorem encodeIntoDelivers : Obligations.EncodeIntoDelivers := by
  intro v s hr hcap hfit
  have hguard : encLen (rangeLen s) ≤ lenMax := hfit.trans (Nat.le_of_lt_succ s.outCap.isLt)
  have he : encodeError .I s = none :=
    encodeError_none.2 ⟨rangeError_of_rangeOk hr fun _ => hcap, hguard, capacityError_none.2 hfit⟩
  exact encodeProc_completes he (hfit.trans hcap)

/-- Settles O22: the checks are those of the shape F, and IN_POS moves to IN_LIMIT. -/
theorem encodeCursorDeliversAndAdvances : Obligations.EncodeCursorDeliversAndAdvances := fun _ _ hp hr hfit =>
  encodeProc_completes (sh := .C) (encodeError_none_of_fits (by decide) hp hr hfit) hfit

/-! ### The failures for want of room (R115, R116) -/

/-- DONE, `K_RESOURCE` and `E_ALLOC` for every command (R23, R216). -/
theorem errStatus_alloc (cmd : Instr) : errStatus cmd .alloc = 0xD3#8 := by
  show statusWord .resource .alloc = 0xD3#8
  decide

/-- The kind of `E_SIZE` is the command's: `K_MALFORMED` on decode, `K_RESOURCE` on encode (90_conflicts.md C5). -/
theorem errStatus_size (cmd : Instr) : errStatus cmd .size = if isDecode cmd then 0xC4#8 else 0xD4#8 := by
  cases h : isDecode cmd
  · show statusWord (if isDecode cmd then .malformed else .resource) .size = 0xD4#8
    rw [h]
    decide
  · show statusWord (if isDecode cmd then .malformed else .resource) .size = 0xC4#8
    rw [h]
    decide

theorem lt_encLen_iff (n : Nat) : 2 ^ 32 - 1 < encLen n ↔ 2684354555 < n := by
  unfold encLen
  omega

/-- The overflow guard is the second check: it does not look at the capacity. -/
theorem encodeError_of_overflow {sh : Shape} {s : State} (hr : rangeError sh s = none)
    (hlong : lenMax < encLen (rangeLen s)) : encodeError sh s = some ⟨.alloc, 0#32⟩ := by
  rw [encodeError, hr, lengthError, if_pos hlong]
  rfl

/-- The capacity is the third check. -/
theorem encodeError_of_capacity {sh : Shape} {s : State} {e : Err} (hr : rangeError sh s = none)
    (hshort : encLen (rangeLen s) ≤ lenMax) (hc : capacityError sh (encLen (rangeLen s)) s = some e) :
    encodeError sh s = some e := by
  rw [encodeError, hr, lengthError, if_neg (by omega), hc]
  rfl

/-- In the shapes F and C a text longer than OUT is `E_ALLOC`, by the guard or by the capacity. -/
theorem encodeError_of_outSize_lt {sh : Shape} {s : State} (hsh : sh ≠ .I) (hr : RangeOk s)
    (hlong : s.par.outSize < encLen (rangeLen s)) : encodeError sh s = some ⟨.alloc, 0#32⟩ := by
  have hrange : rangeError sh s = none := rangeError_of_rangeOk hr fun h => absurd h hsh
  by_cases hguard : encLen (rangeLen s) ≤ lenMax
  · refine encodeError_of_capacity hrange hguard ?_
    cases sh with
    | F | C => exact if_pos hlong
    | I => exact absurd rfl hsh
  · exact encodeError_of_overflow hrange (Nat.lt_of_not_le hguard)

/-- What an encode command that raises `E_ALLOC` reports. -/
theorem encodeProc_alloc {cmd : Instr} {v : Variant} {sh : Shape} {s : State} (hw : writesOut cmd = true)
    (he : encodeError sh s = some ⟨.alloc, 0#32⟩) :
    ∃ t, encodeProc cmd v sh s = .next t ∧ t.status = 0xD3#8 ∧ t.einfo = 0#32 ∧ t.outLen = 0#32 :=
  ⟨_, encodeProc_fails he, by rw [raise_status, errStatus_alloc], raise_einfo .., by rw [raise_outLen, if_pos hw]⟩

/-- Settles O23: the guard stands before the capacity in every shape. -/
theorem encodeOverflowGuard : Obligations.EncodeOverflowGuard := by
  refine ⟨lt_encLen_iff, fun v s hr hlong => ?_⟩
  have hguard : lenMax < encLen (rangeLen s) := (lt_encLen_iff _).2 hlong
  refine ⟨?_, ?_, fun hcap => ?_⟩
  · exact encodeProc_alloc (sh := .F) rfl (encodeError_of_overflow (rangeError_of_rangeOk hr nofun) hguard)
  · exact encodeProc_alloc (sh := .C) rfl (encodeError_of_overflow (rangeError_of_rangeOk hr nofun) hguard)
  · exact encodeProc_alloc (sh := .I) rfl (encodeError_of_overflow (rangeError_of_rangeOk hr fun _ => hcap) hguard)

/-- Settles O24: the capacity is OUT in the shapes F and C, OUT_CAP in the shape I, and decides the code. -/
theorem encodeWithoutRoomFails : Obligations.EncodeWithoutRoomFails := by
  refine fun v s hr => ⟨fun hlong => ⟨?_, ?_⟩, fun hcap hlong hguard => ?_⟩
  · exact exists_reported (encodeProc_fails (sh := .F) (encodeError_of_outSize_lt (by decide) hr hlong))
      (errStatus_alloc _)
  · exact exists_reported (encodeProc_fails (sh := .C) (encodeError_of_outSize_lt (by decide) hr hlong))
      (errStatus_alloc _)
  · have he : encodeError .I s = some ⟨.size, 0#32⟩ :=
      encodeError_of_capacity (rangeError_of_rangeOk hr fun _ => hcap) (Nat.le_of_lt_succ hguard) (if_pos hlong)
    exact exists_reported (encodeProc_fails he) (errStatus_size _)

/-! ### The range checks (R218) -/

/-- DONE, `K_USAGE` and `E_RANGE` for every command (R23, R216). -/
theorem errStatus_range (cmd : Instr) : errStatus cmd .range = 0xE2#8 := by
  show statusWord .usage .range = 0xE2#8
  decide

theorem rangeError_of_pos {sh : Shape} {s : State} (h : s.inLimit.toNat < s.inPos.toNat) :
    rangeError sh s = some ⟨.range, 1#32⟩ := if_pos h

theorem rangeError_of_limit {sh : Shape} {s : State} (h1 : s.inPos.toNat ≤ s.inLimit.toNat)
    (h : s.par.inSize < s.inLimit.toNat) : rangeError sh s = some ⟨.range, 2#32⟩ := by
  rw [rangeError, if_neg (by omega), if_pos h]

theorem rangeError_of_cap {s : State} (hr : RangeOk s) (h : s.par.outSize < s.outCap.toNat) :
    rangeError .I s = some ⟨.range, 3#32⟩ := by
  obtain ⟨h1, h2⟩ := hr
  rw [rangeError, if_neg (by omega), if_neg (by omega), if_pos ⟨rfl, h⟩]

/-- The range checks are the first of an encode command's. -/
theorem encodeError_of_range {sh : Shape} {s : State} {e : Err} (h : rangeError sh s = some e) :
    encodeError sh s = some e := by
  rw [encodeError, h]
  rfl

/-- A Base32 command raises a range error before anything else (R222). -/
theorem exec_base32_rangeError {i : Instr} {s : State} {e : Err} (hb : isBase32 i = true)
    (h : ∀ sh, rangeError sh s = some e) : exec i s = .next (raise i e s) := by
  obtain ⟨v, sh, henc | hdec⟩ := exec_base32 hb
  · rw [henc, encodeProc_fails (encodeError_of_range (h sh))]
  · rw [hdec, decodeProc_fails (h sh)]

/-- Settles O26: each check is reached when those before it pass, the third in the shape I alone. -/
theorem base32RangeErrors : Obligations.Base32RangeErrors := by
  intro i s hb
  refine ⟨fun h => ?_, fun h1 h => ?_, fun hr h hI => ?_⟩
  · exact exists_reported (exec_base32_rangeError hb fun _ => rangeError_of_pos h) (errStatus_range i)
  · exact exists_reported (exec_base32_rangeError hb fun _ => rangeError_of_limit h1 h) (errStatus_range i)
  · obtain ⟨v, rfl | rfl⟩ := hI
    · exact exists_reported (encodeProc_fails (encodeError_of_range (rangeError_of_cap hr h))) (errStatus_range _)
    · exact exists_reported (decodeProc_fails (rangeError_of_cap hr h)) (errStatus_range _)

end Sys2Proof.Machine
end

section
/-! The statements about Base32 decode as a command: the structural errors (41_base32_decode.md R135 to R139), the decoded
length (R142), completion with the frame (section 5), the failures (section 4); and that no Base32 command reads IN outside
its range (20_memory.md R70). -/

namespace Sys2Proof.Machine

/-! ### The structural errors (R135, R136, R138, R139) -/

/-- The decoder reports a structural error of a text without an illegal byte before its first pad. -/
theorem decodeCore_of_structureError {v : Variant} {T : List Byte} {p : Nat} {c : ErrCode} (h : IsFirstPad T p)
    (hlegal : ∀ i, i < p → inv v (T.getD i 0#8) ≠ .ill) (hs : structureError T.length p (T.drop p) = some c) :
    decodeCore v T = .err c 0 := by
  have hnone : firstIllegal v (beforePad T) = none := by
    refine (firstIllegal_beforePad_eq_none h).2 fun i hi => ?_
    exact (inv_ne_ill_iff (h.2.1 i hi)).1 (hlegal i hi)
  rw [decodeCore, hnone, length_beforePad_of_isFirstPad h]
  simp only [hs]

/-- A pad at a place where no group can end (R135). -/
theorem structureError_padPlace {n p : Nat} {rest : List Byte} (hp : p < n) (hm : p % 8 ∉ [2, 4, 5, 7]) :
    structureError n p rest = some .endunit := by
  rw [structureError, if_pos hp, if_pos (by simpa using hm)]

/-- A group completed by a wrong number of pads, or with something else behind its first pad (R136). -/
theorem structureError_padRun {n p : Nat} {rest : List Byte} (hp : p < n)
    (h : n ≠ p + (8 - p % 8) ∨ (rest.any fun b => b != padByte) = true) :
    structureError n p rest = some .endunit := by
  rw [structureError, if_pos hp]
  split_ifs with hplace hcount hrest
  · rfl
  · rfl
  · rfl
  · exact absurd h (not_or.2 ⟨hcount, hrest⟩)

/-- A bare tail of 3 or 6 symbols (R138). -/
theorem structureError_bareTail {p : Nat} {rest : List Byte} (hm : p % 8 ∈ [3, 6]) :
    structureError p p rest = some .endunit := by
  have hm : p % 8 = 3 ∨ p % 8 = 6 := by simpa using hm
  rw [structureError, if_neg (by omega), if_neg (by omega), if_pos hm]

/-- A bare tail of one symbol (R139). -/
theorem structureError_oneSymbol {p : Nat} {rest : List Byte} (hm : p % 8 = 1) :
    structureError p p rest = some .lastunit := by
  rw [structureError, if_neg (by omega), if_pos hm]

/-- Settles O30: each clause is a branch of the structural test. -/
theorem structuralErrors : Obligations.StructuralErrors := by
  intro v T p h hlegal
  refine ⟨fun hp hm => ?_, fun hp _ hbad => ?_, fun hp hm => ?_, fun hp hm => ?_⟩
  · exact decodeCore_of_structureError h hlegal (structureError_padPlace hp hm)
  · refine decodeCore_of_structureError h hlegal (structureError_padRun hp (hbad.imp_right ?_))
    rintro ⟨j, hpj, hj, hne⟩
    by_contra hany
    exact hne (any_drop_ne_padByte_eq_false.1 (eq_false_of_ne_true hany) j hpj hj)
  · exact decodeCore_of_structureError h hlegal (hp ▸ structureError_bareTail (hp ▸ hm))
  · exact decodeCore_of_structureError h hlegal (hp ▸ structureError_oneSymbol (hp ▸ hm))

/-! ### The decoded length (R142) -/

theorem length_of_decodeCore {v : Variant} {T bytes : List Byte} (h : decodeCore v T = .ok bytes) :
    bytes.length = 5 * ((beforePad T).length / 8) + tailBytes ((beforePad T).length % 8) := by
  obtain ⟨-, -, rfl⟩ := decodeCore_eq_ok.1 h
  rw [decodeGroups_length, List.length_map, Nat.mod_def]

theorem tailBytes_le_self (m : Nat) : tailBytes m ≤ m := by
  unfold tailBytes
  split <;> omega

theorem length_le_of_decodeCore {v : Variant} {T bytes : List Byte} (h : decodeCore v T = .ok bytes) :
    bytes.length ≤ T.length := by
  have hlen := length_of_decodeCore h
  have htail := tailBytes_le_self ((beforePad T).length % 8)
  have hle := beforePad_length_le T
  omega

/-- The place of the first pad in its group, or of the end (R133). -/
theorem mod_eight_of_accepted {v : Variant} {T : List Byte} {p : Nat} (h : Accepted v T p) :
    p % 8 = 0 ∨ p % 8 = 2 ∨ p % 8 = 4 ∨ p % 8 = 5 ∨ p % 8 = 7 := by
  obtain ⟨-, ⟨-, hm⟩ | ⟨-, hm, -⟩⟩ := h
  · simpa using hm
  · exact .inr (by simpa using hm)

/-- OTP's formula on whole groups: the pads of an accepted text are those of its tail. -/
theorem paddingAdjusted_of_accepted {v : Variant} {T : List Byte} {p : Nat} (h : Accepted v T p) (h8 : 8 ∣ T.length) :
    5 * (p / 8) + tailBytes (p % 8) = 5 * ((T.length + 7) / 8) - paddingAdjusted (T.length - p) := by
  obtain ⟨-, ⟨hp, -⟩ | ⟨-, hm, hn, -⟩⟩ := h
  · have hm : p % 8 = 0 := by omega
    have hpads : T.length - p = 0 := by omega
    simp only [hm, hpads, tailBytes, paddingAdjusted]
    omega
  · have hpads : T.length - p = 8 - p % 8 := by omega
    have hm : p % 8 = 2 ∨ p % 8 = 4 ∨ p % 8 = 5 ∨ p % 8 = 7 := by simpa using hm
    rw [hpads]
    rcases hm with hm | hm | hm | hm <;> simp only [hm, tailBytes, paddingAdjusted] <;> omega

theorem length_le_groups_of_accepted {v : Variant} {T : List Byte} {p : Nat} (h : Accepted v T p) (hle : p ≤ T.length) :
    5 * (p / 8) + tailBytes (p % 8) ≤ 5 * ((T.length + 7) / 8) := by
  rcases mod_eight_of_accepted h with hm | hm | hm | hm | hm <;> simp only [hm, tailBytes] <;> omega

/-- Settles O31: the length is that of the groups and the tail before the first pad. -/
theorem decodedLength : Obligations.DecodedLength := by
  intro v T bytes p h hd
  have hacc : Accepted v T p := (decoderAcceptsExactly v T p h).1 ⟨bytes, hd⟩
  have hlen : bytes.length = 5 * (p / 8) + tailBytes (p % 8) := by
    rw [length_of_decodeCore hd, length_beforePad_of_isFirstPad h]
  rw [hlen]
  exact ⟨rfl, paddingAdjusted_of_accepted hacc, length_le_groups_of_accepted hacc h.1⟩

/-! ### Completion (section 5) -/

/-- The decoded bytes are fewer than the range, whose length fits 32 bits. -/
theorem length_lt_of_decodeCore_inputOf {v : Variant} {s : State} {bytes : List Byte}
    (hd : decodeCore v (inputOf s) = .ok bytes) : bytes.length < 2 ^ 32 := by
  have hle := length_le_of_decodeCore hd
  rw [inputOf_length, rangeLen] at hle
  have := s.inLimit.isLt
  omega

/-- A decode command whose checks pass completes with the bytes of its input. -/
theorem decodeProc_completes {cmd : Instr} {v : Variant} {sh : Shape} {s : State} {bytes : List Byte}
    (hr : rangeError sh s = none) (hd : decodeCore v (inputOf s) = .ok bytes)
    (hc : capacityError sh bytes.length s = none) :
    ∃ t, decodeProc cmd v sh s = .next t ∧
      Base32Completed s t bytes (if sh = .C then s.inLimit else s.inPos) :=
  ⟨_, decodeProc_commits hr hd hc, base32Completed_commit sh s (length_lt_of_decodeCore_inputOf hd)⟩

/-- Settles O34: the checks of the shape F pass, and it leaves IN_POS. -/
theorem decodeFreshDelivers : Obligations.DecodeFreshDelivers := fun _ _ _ hr hd hfit =>
  decodeProc_completes (sh := .F) (rangeError_of_rangeOk hr nofun) hd (capacityError_none.2 hfit)

/-- Settles O35: the capacity of the shape I is OUT_CAP, which lies inside OUT. -/
theorem decodeIntoDelivers : Obligations.DecodeIntoDelivers := fun _ _ _ hr hcap hd hfit =>
  decodeProc_completes (sh := .I) (rangeError_of_rangeOk hr fun _ => hcap) hd (capacityError_none.2 hfit)

/-- Settles O36: the checks are those of the shape F, and IN_POS moves to IN_LIMIT. -/
theorem decodeCursorDeliversAndAdvances : Obligations.DecodeCursorDeliversAndAdvances := fun _ _ _ hr hd hfit =>
  decodeProc_completes (sh := .C) (rangeError_of_rangeOk hr nofun) hd (capacityError_none.2 hfit)

/-! ### The failures (section 4) -/

/-- DONE, `K_MALFORMED` and `E_ENDUNIT` for every command (R23, R216). -/
theorem errStatus_endunit (cmd : Instr) : errStatus cmd .endunit = 0xC6#8 := by
  show statusWord .malformed .endunit = 0xC6#8
  decide

/-- DONE, `K_MALFORMED` and `E_LASTUNIT` for every command (R23, R216). -/
theorem errStatus_lastunit (cmd : Instr) : errStatus cmd .lastunit = 0xC7#8 := by
  show statusWord .malformed .lastunit = 0xC7#8
  decide

/-- Settles O37: the text is looked at before the capacity, whose error is the shape's. -/
theorem decodeFailures : Obligations.DecodeFailures := by
  refine fun v s hr => ⟨fun cmd hcmd hcap => ⟨fun hd => ?_, fun hd => ?_⟩, fun bytes hd => ⟨fun hlong => ⟨?_, ?_⟩, ?_⟩⟩
  · exact exists_reported (exec_decode_rejects hcmd hr hcap hd) (errStatus_endunit cmd)
  · exact exists_reported (exec_decode_rejects hcmd hr hcap hd) (errStatus_lastunit cmd)
  · have hc : capacityError .F bytes.length s = some ⟨.alloc, 0#32⟩ := if_pos hlong
    exact exists_reported (decodeProc_overflows (sh := .F) (rangeError_of_rangeOk hr nofun) hd hc) (errStatus_alloc _)
  · have hc : capacityError .C bytes.length s = some ⟨.alloc, 0#32⟩ := if_pos hlong
    exact exists_reported (decodeProc_overflows (sh := .C) (rangeError_of_rangeOk hr nofun) hd hc) (errStatus_alloc _)
  · intro hcap hlong
    have hc : capacityError .I bytes.length s = some ⟨.size, 0#32⟩ := if_pos hlong
    exact exists_reported (decodeProc_overflows (sh := .I) (rangeError_of_rangeOk hr fun _ => hcap) hd hc) (errStatus_size _)

/-! ### A Base32 command reads its range alone (20_memory.md R70) -/

/-- A buffer that reads the same inside the range gives the same input. -/
theorem inputOf_withInp {s : State} {b : Buffer}
    (h : ∀ off, s.inPos.toNat ≤ off → off < s.inLimit.toNat →
      ({ s with inp := b } : State).byteAt .inp off = s.byteAt .inp off) :
    inputOf { s with inp := b } = inputOf s := by
  refine List.map_congr_left fun i hi => ?_
  have hi : i < s.inLimit.toNat - s.inPos.toNat := List.mem_range.1 hi
  exact h (s.inPos.toNat + i) (Nat.le_add_right _ _) (by omega)

theorem raise_withInp (cmd : Instr) (e : Err) (s : State) (b : Buffer) :
    raise cmd e { s with inp := b } = { raise cmd e s with inp := b } := by
  cases cmd <;> rfl

theorem commit_withInp (sh : Shape) (s : State) (bytes : List Byte) (b : Buffer) :
    (advance sh (State.delivered { s with inp := b } bytes)).succeed =
      { (advance sh (s.delivered bytes)).succeed with inp := b } := by
  cases sh <;> rfl

/-- The checks of an encode command do not look at IN, and its text is that of the input. -/
theorem encodeProc_withInp {cmd : Instr} {v : Variant} {sh : Shape} {s t : State} {b : Buffer}
    (hin : inputOf { s with inp := b } = inputOf s) (h : encodeProc cmd v sh s = .next t) :
    encodeProc cmd v sh { s with inp := b } = .next { t with inp := b } := by
  rcases encodeProc_cases h with ⟨e, he, rfl⟩ | ⟨he, -, hc⟩
  · rw [← raise_withInp]
    exact encodeProc_fails he
  · obtain ⟨hl, rfl⟩ := commitBytes_cases hc
    rw [← commit_withInp]
    have hcommits : encodeProc cmd v sh { s with inp := b } =
        .next (advance sh (State.delivered { s with inp := b } (encodeCore v (inputOf { s with inp := b })))).succeed :=
      encodeProc_commits he ((congrArg (fun S => (encodeCore v S).length) hin).trans_le hl)
    rwa [hin] at hcommits

/-- Neither do those of a decode command but through the input. -/
theorem decodeProc_withInp {cmd : Instr} {v : Variant} {sh : Shape} {s t : State} {b : Buffer}
    (hin : inputOf { s with inp := b } = inputOf s) (h : decodeProc cmd v sh s = .next t) :
    decodeProc cmd v sh { s with inp := b } = .next { t with inp := b } := by
  rcases decodeProc_cases h with ⟨e, he, rfl⟩ | ⟨hr, -, ⟨c, i, hd, rfl⟩ | ⟨bytes, hd, ⟨e, he, rfl⟩ | ⟨hcap, hc⟩⟩⟩
  · rw [← raise_withInp]
    exact decodeProc_fails he
  · rw [← raise_withInp]
    exact decodeProc_rejects hr ((congrArg (decodeCore v) hin).trans hd)
  · rw [← raise_withInp]
    exact decodeProc_overflows hr ((congrArg (decodeCore v) hin).trans hd) he
  · obtain ⟨-, rfl⟩ := commitBytes_cases hc
    rw [← commit_withInp]
    exact decodeProc_commits hr ((congrArg (decodeCore v) hin).trans hd) hcap

/-- Settles O57: a Base32 command reaches IN through its input alone. -/
theorem base32ReadsOnlyItsRange : Obligations.Base32ReadsOnlyItsRange := by
  intro i s t b hb hsame h
  have hin := inputOf_withInp hsame
  obtain ⟨v, sh, henc | hdec⟩ := exec_base32 hb
  · rw [henc] at h ⊢
    exact encodeProc_withInp hin h
  · rw [hdec] at h ⊢
    exact decodeProc_withInp hin h

end Sys2Proof.Machine
end

section
/-! The statements about the HOTP commands: truncation (42_hotp_truncate_format.md section 2), formatting (section 3), their
composition (R177) and the errors in the order of the tests (section 1). -/

namespace Sys2Proof.Machine

/-! ### The truncation (section 2) -/

/-- The state with the truncation of its hash in TOFF and BIN (R167). -/
def State.truncated (s : State) : State :=
  s.setTruncation (selectOffset (cfgOffset s.cfg) (hashOf s))
    (extract31 (hashOf s) (selectOffset (cfgOffset s.cfg) (hashOf s)))

/-- Under its conditions a truncation goes on with the selected offset and the value there. -/
theorem truncate_of_truncationOk {cmd : Instr} {s : State} {k : Nat → BitVec 31 → Host.Outcome State Fault Refusal}
    (h : TruncationOk s) :
    truncate cmd s k = k (selectOffset (cfgOffset s.cfg) (hashOf s))
      (extract31 (hashOf s) (selectOffset (cfgOffset s.cfg) (hashOf s))) := by
  obtain ⟨hv, h1, h64, hfit⟩ := h
  exact truncate_eq hv h1 h64 hfit

theorem exec_htrunc_of_truncationOk {s : State} (h : TruncationOk s) : exec .htrunc s = .next s.truncated.succeed := by
  rw [exec_htrunc, truncate_of_truncationOk h, State.truncated]

theorem exec_hcode_of_truncationOk {s : State} (h : TruncationOk s) : exec .hcode s = formatBin s.truncated := by
  rw [exec_hcode, truncate_of_truncationOk h, State.truncated]

/-- OFFSET has five bits, two's complement (R37). -/
theorem cfgOffset_le (c : Word) : cfgOffset c ≤ 15 := by
  have h : 2 * cfgOffset c < 2 ^ 5 := BitVec.two_mul_toInt_lt
  omega

/-- The selected offset fits TOFF: a fixed one by the width of OFFSET, a dynamic one as a low nibble (R164). -/
theorem selectOffset_cfgOffset_le (c : Word) (H : List Byte) : selectOffset (cfgOffset c) H ≤ 15 := by
  have hc := cfgOffset_le c
  by_cases h : 0 ≤ cfgOffset c ∧ cfgOffset c < (H.length : Int) - 4
  · rw [selectOffset_fixed h]
    omega
  · rw [selectOffset_dynamic h]
    omega

theorem hashOf_getElem? {s : State} {i : Nat} (h : i < s.hashLen.toNat) : (hashOf s)[i]? = some (s.byteAt .hash i) := by
  simp [hashOf, State.bytesAt, h]

/-- The value of a window inside the hash, from the buffer's own bytes (R166). -/
theorem toNat_extract31_hashOf {s : State} {off : Nat} (h : off + 4 ≤ s.hashLen.toNat) :
    (extract31 (hashOf s) off).toNat =
      (s.byteAt .hash off).toNat % 128 * 2 ^ 24 + (s.byteAt .hash (off + 1)).toNat * 2 ^ 16 +
        (s.byteAt .hash (off + 2)).toNat * 2 ^ 8 + (s.byteAt .hash (off + 3)).toNat :=
  (extractionIsBigEndian31 (hashOf s) off _ _ _ _ (hashOf_getElem? (by omega)) (hashOf_getElem? (by omega))
    (hashOf_getElem? (by omega)) (hashOf_getElem? (by omega))).2

theorem toff_truncated (s : State) : s.truncated.toff.toNat = selectOffset (cfgOffset s.cfg) (hashOf s) := by
  have hle := selectOffset_cfgOffset_le s.cfg (hashOf s)
  rw [State.truncated, setTruncation_toff, BitVec.toNat_ofNat, Nat.mod_eq_of_lt (by omega)]

theorem bin_truncated {s : State} (h : TruncationOk s) :
    let off := selectOffset (cfgOffset s.cfg) (hashOf s)
    s.truncated.bin.toNat = (s.byteAt .hash off).toNat % 128 * 2 ^ 24 + (s.byteAt .hash (off + 1)).toNat * 2 ^ 16 +
      (s.byteAt .hash (off + 2)).toNat * 2 ^ 8 + (s.byteAt .hash (off + 3)).toNat := by
  obtain ⟨-, -, -, hfit⟩ := h
  exact toNat_extract31_hashOf hfit

/-- Settles O40: the conditions are the tests HTRUNC makes, and it stores the offset and the value alone. -/
theorem htruncTruncates : Obligations.HtruncTruncates := fun s h =>
  ⟨_, exec_htrunc_of_truncationOk h, succeeded_succeed _, ⟨toff_truncated s, bin_truncated h⟩, rfl, rfl, rfl, rfl,
    ⟨rfl, rfl, rfl, rfl, rfl, rfl, rfl, rfl⟩, rfl, ⟨rfl, rfl, rfl, rfl⟩⟩

/-! ### The formatting (section 3) -/

/-- Success, the code of BIN and its string, and nothing else changed (R176). -/
def HotpFormatted (s t : State) : Prop :=
  Succeeded t ∧ t.code.toNat = s.bin.toNat % 10 ^ cfgDigits s.cfg ∧
    Delivered s t (hotpFormat s.bin.toNat (cfgDigits s.cfg) (cfgChecksum s.cfg)).2 ∧
    t.bin = s.bin ∧ t.toff = s.toff ∧ t.inPos = s.inPos ∧ SameOperands s t ∧ t.cfg = s.cfg ∧ SameHostSide s t

/-- DIGITS of a configuration that has been built (R38). -/
theorem cfgDigits_le_of_cfgLegal {c : Word} (h : cfgLegal c = true) (hv : cfgValid c = true) : cfgDigits c ≤ 8 := by
  have hc : c ≠ 0#32 := by
    rintro rfl
    exact absurd hv (by decide)
  simp only [cfgLegal, decide_eq_false hc, Bool.false_or, Bool.and_eq_true, decide_eq_true_eq] at h
  obtain ⟨⟨⟨⟨⟨-, -⟩, -⟩, h8⟩, -⟩, -⟩ := h
  exact h8

/-- A code of up to eight digits is below 10^8, so CODE holds it (R33). -/
theorem code_lt {digits : Nat} (n : Nat) (h : digits ≤ 8) : n % 10 ^ digits < 10 ^ 8 :=
  (Nat.mod_lt n (by positivity)).trans_le (Nat.pow_le_pow_right (by decide) h)

theorem toNat_ofNat_code {digits : Nat} (n : Nat) (h : digits ≤ 8) :
    (BitVec.ofNat 32 (n % 10 ^ digits)).toNat = n % 10 ^ digits :=
  Nat.mod_eq_of_lt ((code_lt n h).trans (by decide))

/-- The string has at most 16 characters, which every admitted OUT holds (R4, R171). -/
theorem hotpFormat_string_length_le (n : Nat) (c : Word) :
    (hotpFormat n (cfgDigits c) (cfgChecksum c)).2.length ≤ 16 := by
  rw [hotpFormat_string_length]
  exact renderWidth_cfgDigits_le c _

/-- Under admitted parameters the formatting fits OUT. -/
theorem formatBin_of_admitted {s : State} (hp : s.par.admitted = true) :
    let r := hotpFormat s.bin.toNat (cfgDigits s.cfg) (cfgChecksum s.cfg)
    formatBin s = .next ({ s.delivered r.2 with code := BitVec.ofNat 32 r.1 } : State).succeed := by
  obtain ⟨-, -, hout, -⟩ := admitted_iff.1 hp
  exact formatBin_eq ((hotpFormat_string_length_le ..).trans hout)

theorem formatBin_completes {s : State} (hp : s.par.admitted = true) (hd : cfgDigits s.cfg ≤ 8) :
    ∃ t, formatBin s = .next t ∧ HotpFormatted s t := by
  have h32 := (hotpFormat_string_length_le s.bin.toNat s.cfg).trans_lt (show 16 < 2 ^ 32 by decide)
  exact ⟨_, formatBin_of_admitted hp, succeeded_succeed _, toNat_ofNat_code _ hd,
    delivered_of_writeList rfl rfl rfl rfl h32, rfl, rfl, rfl, ⟨rfl, rfl, rfl, rfl, rfl, rfl, rfl, rfl⟩, rfl,
    ⟨rfl, rfl, rfl, rfl⟩⟩

theorem exec_hfmt_of_valid {s : State} (hv : cfgValid s.cfg = true) : exec .hfmt s = formatBin s := by
  rw [exec_hfmt, if_neg (by simp [hv])]

theorem renderWidth_eq (digits : Nat) (ck : Bool) : renderWidth digits ck = digits + if ck then 1 else 0 := by
  cases ck <;> rfl

/-- Settles O44: the string fits OUT, and the code CODE, because a built configuration has at most eight digits. -/
theorem hfmtFormats : Obligations.HfmtFormats := by
  intro s hp hl hv
  obtain ⟨t, ht, hok, hcode, hstring, hbin, htoff, hpos, hops, hcfg, hhost⟩ :=
    formatBin_completes hp (cfgDigits_le_of_cfgLegal hl hv)
  have houtLen : t.outLen.toNat = cfgDigits s.cfg + if cfgChecksum s.cfg then 1 else 0 := by
    rw [hstring.1, hotpFormat_string_length, renderWidth_eq]
  exact ⟨t, (exec_hfmt_of_valid hv).trans ht, hok, hcode, hstring, houtLen, hbin, htoff, hpos, hops, hcfg, hhost⟩

/-- Settles O45: HCODE formats the state HTRUNC leaves. -/
theorem hcodeComputesTheCode : Obligations.HcodeComputesTheCode := by
  intro s hp hl h
  obtain ⟨t, ht, hok, hcode, hstring, hbin, htoff, hpos, hops, hcfg, hhost⟩ :=
    formatBin_completes (s := s.truncated) hp (cfgDigits_le_of_cfgLegal hl h.1)
  have hvalue := bin_truncated h
  rw [← hbin] at hcode hstring hvalue
  exact ⟨t, (exec_hcode_of_truncationOk h).trans ht, hok, ⟨by rw [htoff, toff_truncated], hvalue⟩, hcode, hstring, hpos,
    hops, hcfg, hhost⟩

/-! ### HCODE is HTRUNC followed by HFMT (R177) -/

/-- The formatting reports its own success, whatever was reported before. -/
theorem formatBin_succeed (s : State) : formatBin s.succeed = formatBin s := by
  by_cases hl : (hotpFormat s.bin.toNat (cfgDigits s.cfg) (cfgChecksum s.cfg)).2.length ≤ s.par.outSize
  · rw [formatBin_eq hl, formatBin_eq (s := s.succeed) hl]
    rfl
  · simp only [formatBin, succeed_bin, succeed_cfg, deliver_eq_none hl, deliver_eq_none (s := s.succeed) hl]

theorem cfgValid_of_truncation_ok {cfg hashLen : Word} {H : List Byte} {r : Nat × BitVec 31}
    (h : truncation cfg hashLen H = .ok r) : cfgValid cfg = true := by
  unfold truncation at h
  dsimp only at h
  split_ifs at h with hv
  simpa using hv

/-- An error is never a success, so no state is both. -/
theorem raise_ne_of_status {cmd : Instr} {e : Err} {s u : State} (he : e.code ≠ .ok) (hu : u.status = 0x80#8) :
    raise cmd e s ≠ u := by
  rintro rfl
  rw [raise_status] at hu
  exact errStatus_ne_okStatus cmd he hu

/-- Settles O46: both truncate alike; on an error neither side succeeds, else both format the state HTRUNC leaves. -/
theorem hcodeIsHtruncThenHfmt : Obligations.HcodeIsHtruncThenHfmt := by
  intro s u hu
  rw [exec_hcode, exec_htrunc, truncate_eq_afterTruncation, truncate_eq_afterTruncation]
  cases hres : truncation s.cfg s.hashLen (hashOf s) with
  | error e =>
    have he := truncation_error_code_ne_ok hres
    constructor
    · intro h
      exact absurd (Host.Outcome.next.inj h) (raise_ne_of_status he hu)
    · rintro ⟨t, h, ht, -⟩
      exact absurd (Host.Outcome.next.inj h) (raise_ne_of_status he ht)
  | ok r =>
    have hv : cfgValid (s.setTruncation r.1 r.2).succeed.cfg = true := cfgValid_of_truncation_ok hres
    constructor
    · intro h
      exact ⟨_, rfl, rfl, (exec_hfmt_of_valid hv).trans ((formatBin_succeed _).trans h)⟩
    · rintro ⟨t, ht, -, h⟩
      cases ht
      rwa [exec_hfmt_of_valid hv, formatBin_succeed] at h

/-! ### The errors in the order of the tests (section 1) -/

theorem exec_of_truncation_error {i : Instr} {s : State} {e : Err} (hi : i ∈ [Instr.htrunc, .hcode])
    (h : truncation s.cfg s.hashLen (hashOf s) = .error e) : exec i s = .next (raise i e s) := by
  simp only [List.mem_cons, List.not_mem_nil, or_false] at hi
  rcases hi with rfl | rfl
  · rw [exec_htrunc, truncate_eq_afterTruncation, h, afterTruncation]
  · rw [exec_hcode, truncate_eq_afterTruncation, h, afterTruncation]

theorem truncation_noCfg {cfg hashLen : Word} {H : List Byte} (hv : cfgValid cfg = false) :
    truncation cfg hashLen H = .error ⟨.nocfg, 0#32⟩ := if_pos hv

theorem truncation_hashLen {cfg hashLen : Word} {H : List Byte} (hv : cfgValid cfg = true)
    (hl : hashLen.toNat < 1 ∨ hashMax < hashLen.toNat) : truncation cfg hashLen H = .error ⟨.range, 4#32⟩ := by
  unfold truncation
  dsimp only
  rw [if_neg (by simp [hv]), if_pos hl]

theorem truncation_window {cfg hashLen : Word} {H : List Byte} (hv : cfgValid cfg = true) (h1 : 1 ≤ hashLen.toNat)
    (h64 : hashLen.toNat ≤ 64) (hw : hashLen.toNat < selectOffset (cfgOffset cfg) H + 4) :
    truncation cfg hashLen H = .error ⟨.hashrange, BitVec.ofNat 32 (selectOffset (cfgOffset cfg) H)⟩ := by
  unfold truncation
  dsimp only
  rw [if_neg (by simp [hv]), if_neg (by rw [hashMax]; omega), if_pos hw]

/-- DONE, `K_USAGE` and `E_HASHRANGE` for every command (R23, R216). -/
theorem errStatus_hashrange (cmd : Instr) : errStatus cmd .hashrange = 0xEA#8 := by
  show statusWord .usage .hashrange = 0xEA#8
  decide

/-- Settles O47: each test is reached when those before it pass; the offset fits EINFO. -/
theorem truncationErrors : Obligations.TruncationErrors := by
  refine fun s i hi => ⟨fun hv => ?_, fun hv hl => ?_, fun hv h1 h64 hw => ?_⟩
  · exact exists_reported (exec_of_truncation_error hi (truncation_noCfg hv)) (errStatus_nocfg i)
  · exact exists_reported (exec_of_truncation_error hi (truncation_hashLen hv hl)) (errStatus_range i)
  · obtain ⟨t, ht, hstatus, hinfo⟩ :=
      exists_reported (exec_of_truncation_error hi (truncation_window hv h1 h64 hw)) (errStatus_hashrange i)
    have hle := selectOffset_cfgOffset_le s.cfg (hashOf s)
    refine ⟨t, ht, hstatus, ?_⟩
    rw [hinfo, BitVec.toNat_ofNat, Nat.mod_eq_of_lt (by omega)]

end Sys2Proof.Machine
end

section
/-! The statement about a successful CFGBUILD (43_config_and_control.md section 1, 30_encoding.md R88). -/

namespace Sys2Proof.Machine

/-- The number of a built CFG (R88). -/
theorem toNat_packCfg (d o : Int) (ck : BitVec 1) :
    (packCfg d o ck).toNat = 2 ^ 31 + (o % 32).toNat * 2 ^ 5 + ck.toNat * 2 ^ 4 + (d % 16).toNat := by
  show (1#1 ++ 0#21 ++ BitVec.ofInt 5 o ++ ck ++ BitVec.ofInt 4 d).toNat = _
  rw [BitVec.toNat_append, BitVec.toNat_append, BitVec.toNat_append, BitVec.toNat_append,
    ← Nat.shiftLeft_add_eq_or_of_lt (BitVec.isLt (BitVec.ofInt 4 d)), ← Nat.shiftLeft_add_eq_or_of_lt ck.isLt,
    ← Nat.shiftLeft_add_eq_or_of_lt (BitVec.isLt (BitVec.ofInt 5 o)),
    ← Nat.shiftLeft_add_eq_or_of_lt (BitVec.isLt (0#21)), BitVec.toNat_ofInt, BitVec.toNat_ofInt]
  simp only [Nat.shiftLeft_eq, BitVec.toNat_ofNat]
  norm_num
  omega

theorem cfgChecksum_packCfg (d o : Int) (ck : BitVec 1) : cfgChecksum (packCfg d o ck) = true ↔ ck = 1#1 := by
  rw [cfgChecksum, packCfg_getLsbD, if_neg (by omega), if_pos (by omega), Nat.sub_self]
  revert ck
  decide

/-- A staged configuration in range is committed (R190). -/
theorem exec_cfgbuild_of_staged {s : State} (h : stagedError s = none) :
    exec .cfgbuild s =
      .next ({ s with cfg := packCfg (stagedDigits s) (stagedOffset s) s.cfgChecksumIn } : State).succeed := by
  show execCfgbuild s = _
  rw [execCfgbuild, h]

/-- A staged number of digits in range is the register's number (R87). -/
theorem toNat_stagedDigits {s : State} (h6 : 6 ≤ stagedDigits s) (h8 : stagedDigits s ≤ 8) :
    (stagedDigits s % 16).toNat = s.cfgDigitsIn.toNat := by
  have htwo := BitVec.toInt_eq_toNat_cond s.cfgDigitsIn
  have hlt := s.cfgDigitsIn.isLt
  unfold stagedDigits at *
  split_ifs at htwo <;> omega

/-- Settles O50: a configuration in range passes the checks, and its fields fit those of CFG. -/
theorem cfgbuildCommits : Obligations.CfgbuildCommits := by
  intro s (h6 : 6 ≤ stagedDigits s) (h8 : stagedDigits s ≤ 8) (hlo : -1 ≤ stagedOffset s) (hhi : stagedOffset s ≤ 15)
  have hnumber := toNat_packCfg (stagedDigits s) (stagedOffset s) s.cfgChecksumIn
  rw [toNat_stagedDigits h6 h8] at hnumber
  exact ⟨_, exec_cfgbuild_of_staged (stagedError_none.2 ⟨h6, h8, hlo, hhi⟩), succeeded_succeed _, hnumber,
    cfgValid_packCfg _ _ _, cfgDigits_packCfg _ _ (by omega) (by omega), cfgOffset_packCfg _ _ (by omega) (by omega),
    cfgChecksum_packCfg _ _ _, cfgLegal_packCfg _ h6 h8 hlo hhi, rfl, rfl, rfl,
    ⟨rfl, rfl, rfl, rfl, rfl, rfl, rfl, rfl⟩, ⟨rfl, rfl, rfl⟩, ⟨rfl, rfl, rfl, rfl⟩⟩

end Sys2Proof.Machine
end

section
/-! The statements about the port and the reset input: register and buffer operations (20_memory.md section 1), which events
are refused (R62), the order of events (section 2), and the state after a reset (10_state.md R52). -/

namespace Sys2Proof.Machine

/-! ### The commands (R22, R64) -/

theorem step_command {s : State} {w : Word} {i : Instr} {rest : List Event}
    (h : s.port = .op (.regWrite 0#32 w) :: rest) (hd : decodeCmd w = .ok i) :
    step s = exec i { s with port := rest } := by
  rw [step_takes h]
  show runCommandWord w _ = _
  rw [runCommandWord, hd]

/-- Settles O4: a write to CMD runs the command its word decodes to. -/
theorem stepRunsTheDecodedCommand : Obligations.StepRunsTheDecodedCommand := fun _ _ _ _ => step_command

/-! ### The registers (R21, R60) -/

theorem regOf_regIdx (r : Reg) : regOf (regIdx r) = some r := by cases r <;> rfl

theorem regIdx_ne_zero {r : Reg} : r ≠ .cmd → regIdx r ≠ 0#32 := by
  cases r <;> decide

theorem regRead_regIdx (s : State) (r : Reg) : s.regRead (regIdx r) = s.reg r := by
  rw [State.regRead, regOf_regIdx]

theorem regWrite_regIdx (s : State) (r : Reg) (w : Word) : s.regWrite (regIdx r) w = s.setReg w r := by
  rw [State.regWrite, regOf_regIdx]

/-- A host write to a register other than CMD stores the register's bits (R60). -/
theorem step_setReg {s : State} {r : Reg} {w : Word} {rest : List Event} (hr : r ≠ .cmd)
    (h : s.port = .op (.regWrite (regIdx r) w) :: rest) :
    step s = .next (({ s with port := rest } : State).setReg w r) := by
  rw [step_regWrite (regIdx_ne_zero hr) h, regWrite_regIdx]

/-- Cutting a word to `k` bits and extending it again masks it. -/
theorem setWidth_setWidth_eq_and {k : Nat} (hk : k < 32) (w : Word) :
    (w.setWidth k).setWidth 32 = w &&& BitVec.ofNat 32 (2 ^ k - 1) := by
  have hmask : 2 ^ k - 1 < 2 ^ 32 := (Nat.sub_le _ _).trans_lt (Nat.pow_lt_pow_right (by decide) hk)
  apply BitVec.eq_of_toNat_eq
  rw [BitVec.toNat_setWidth_of_le (by omega), BitVec.toNat_setWidth, BitVec.toNat_and, BitVec.toNat_ofNat,
    Nat.mod_eq_of_lt hmask, Nat.and_two_pow_sub_one_eq_mod]

/-- What a read-write register reads as after a write to it: the bits it has of the word. -/
theorem reg_setReg_same (s : State) (w : Word) {r : Reg} (hr : regAccess r = .rw) :
    (s.setReg w r).reg r =
      if r = .bin then w &&& 0x7FFFFFFF#32 else if r = .cfgChecksumIn then w &&& 1#32 else w := by
  cases r with
  | bin => exact setWidth_setWidth_eq_and (k := 31) (by decide) w
  | cfgChecksumIn => exact setWidth_setWidth_eq_and (k := 1) (by decide) w
  | inPos | inLimit | outCap | hashLen | cfgDigitsIn | cfgOffsetIn => rfl
  | cmd | status | einfo | outLen | toff | code | cfg => cases hr

/-- Each register is a field of its own, or CMD, which has none. -/
theorem reg_setReg_other (s : State) (w : Word) {r r' : Reg} (h : r' ≠ r) : (s.setReg w r).reg r' = s.reg r' := by
  cases r <;> cases r' <;> first | rfl | exact absurd rfl h

/-- A register write changes no buffer. -/
theorem byteAt_setReg (s : State) (w : Word) (r : Reg) (sp : Space) (off : Nat) :
    (s.setReg w r).byteAt sp off = s.byteAt sp off := by
  cases r <;> rfl

theorem setReg_sameHostSide (s : State) (w : Word) (r : Reg) : SameHostSide s (s.setReg w r) := by
  cases r <;> exact ⟨rfl, rfl, rfl, rfl⟩

theorem setReg_readOnly (s : State) (w : Word) {r : Reg} (hr : regAccess r = .ro) : s.setReg w r = s := by
  cases r with
  | status | einfo | outLen | toff | code | cfg => rfl
  | cmd | inPos | inLimit | outCap | hashLen | bin | cfgDigitsIn | cfgOffsetIn | cfgChecksumIn => cases hr

/-- Settles O7: a read-write register takes its bits of the word, and a read-only one none. -/
theorem hostWriteStoresTheRegistersBits : Obligations.HostWriteStoresTheRegistersBits := by
  intro s r w rest h
  constructor
  · intro hmem
    have hr : regAccess r = .rw ∧ r ≠ .cmd := by
      revert hmem
      cases r <;> decide
    obtain ⟨hpar, hstream, hport, htrace⟩ := setReg_sameHostSide { s with port := rest } w r
    exact ⟨_, step_setReg hr.2 h, reg_setReg_same _ w hr.1, fun r' hne => reg_setReg_other { s with port := rest } w hne,
      byteAt_setReg _ w r, hpar, hstream, hport, htrace⟩
  · intro hmem
    have hr : regAccess r = .ro ∧ r ≠ .cmd := by
      revert hmem
      cases r <;> decide
    rw [step_setReg hr.2 h, setReg_readOnly _ w hr.1]

/-- Settles O8: the value is the register's own bits, extended with zeros. -/
theorem registerReadHandsBackTheValue : Obligations.RegisterReadHandsBackTheValue := by
  intro s r rest h
  refine ⟨s.reg r, by rw [step_regRead h, regRead_regIdx], ?_⟩
  cases r with
  | status | bin | toff | cfgChecksumIn => exact BitVec.toNat_setWidth_of_le (by decide)
  | cmd | einfo | inPos | inLimit | outCap | outLen | hashLen | code | cfgDigitsIn | cfgOffsetIn | cfg => rfl

/-! ### The buffers (R60, R62) -/

theorem step_bufWrite {s : State} {sp : Space} {off : Nat} {b : Byte} {rest : List Event}
    (h : s.port = .op (.bufWrite sp off b) :: rest) :
    step s = portBufWrite sp off b { s with port := rest } := step_takes h

theorem step_bufRead {s : State} {sp : Space} {off : Nat} {rest : List Event}
    (h : s.port = .op (.bufRead sp off) :: rest) :
    step s = portBufRead sp off { s with port := rest } := step_takes h

/-- A write to IN or HASH replaces the buffer's memory. -/
theorem bufWrite_eq_setBuf (s : State) {sp : Space} (h : sp ≠ .out) (off : Nat) (b : Byte) :
    s.bufWrite sp off b = s.setBuf sp { s.buf sp with mem := Memory.write (s.buf sp).mem off b } := by
  cases sp with
  | inp | hash => rfl
  | out => exact absurd rfl h

theorem byteAt_bufWrite (s : State) (sp sp' : Space) (off off' : Nat) (b : Byte) :
    (s.bufWrite sp off b).byteAt sp' off' = if sp' = sp ∧ off' = off ∧ sp ≠ .out then b else s.byteAt sp' off' := by
  by_cases hout : sp = .out
  · subst hout
    exact (if_neg fun h => h.2.2 rfl).symm
  rw [bufWrite_eq_setBuf s hout]
  by_cases hsp : sp' = sp
  · subst hsp
    simp only [State.byteAt, setBuf_buf, setBuf_stream, if_true, read_write, true_and, ne_eq, hout, not_false_eq_true,
      and_true]
    split <;> rfl
  · rw [if_neg fun h => hsp h.1]
    exact byteAt_congr ((setBuf_buf ..).trans (if_neg hsp)) (setBuf_stream ..) off'

theorem reg_bufWrite (s : State) (sp : Space) (off : Nat) (b : Byte) (r : Reg) :
    (s.bufWrite sp off b).reg r = s.reg r := by
  cases sp <;> rfl

theorem bufWrite_sameHostSide (s : State) (sp : Space) (off : Nat) (b : Byte) :
    SameHostSide s (s.bufWrite sp off b) := by
  cases sp <;> exact ⟨rfl, rfl, rfl, rfl⟩

/-- Settles O9: IN and HASH take the byte at its offset, and OUT nothing. -/
theorem bufferWriteStoresOneByte : Obligations.BufferWriteStoresOneByte := by
  intro s sp off b rest h hlt
  obtain ⟨hpar, hstream, hport, htrace⟩ := bufWrite_sameHostSide { s with port := rest } sp off b
  exact ⟨_, (step_bufWrite h).trans (if_pos hlt), fun sp' off' => byteAt_bufWrite _ sp sp' off off' b,
    reg_bufWrite _ sp off b, hpar, hstream, hport, htrace⟩

/-- Settles O10: a read inside the buffer hands back the byte alone. -/
theorem bufferReadHandsBackTheByte : Obligations.BufferReadHandsBackTheByte := fun _ _ _ _ h hlt =>
  (step_bufRead h).trans (if_pos hlt)

/-! ### What is refused (R62) -/

theorem commitBytes_ne_refused (sh : Shape) (bytes : List Byte) (s : State) (r : Refusal) :
    commitBytes sh bytes s ≠ .refused r := by
  unfold commitBytes
  split <;> nofun

theorem encodeProc_ne_refused (cmd : Instr) (v : Variant) (sh : Shape) (s : State) (r : Refusal) :
    encodeProc cmd v sh s ≠ .refused r := by
  unfold encodeProc
  split
  · nofun
  · split
    · exact commitBytes_ne_refused _ _ _ r
    · nofun

theorem decodeProc_ne_refused (cmd : Instr) (v : Variant) (sh : Shape) (s : State) (r : Refusal) :
    decodeProc cmd v sh s ≠ .refused r := by
  unfold decodeProc
  split
  · nofun
  split
  · nofun
  split
  · nofun
  split
  · nofun
  · exact commitBytes_ne_refused _ _ _ r

theorem formatBin_ne_refused (s : State) (r : Refusal) : formatBin s ≠ .refused r := by
  unfold formatBin
  dsimp only
  split <;> nofun

/-- The shared truncation refuses nothing of its own. -/
theorem truncate_ne_refused {cmd : Instr} {s : State} {k : Nat → BitVec 31 → Host.Outcome State Fault Refusal}
    {r : Refusal} (hk : ∀ off bin, k off bin ≠ .refused r) : truncate cmd s k ≠ .refused r := by
  rw [truncate_eq_afterTruncation]
  cases truncation s.cfg s.hashLen (hashOf s) with
  | error e => nofun
  | ok p => exact hk p.1 p.2

/-- No command is refused, from any state. -/
theorem exec_ne_refused (i : Instr) (s : State) (r : Refusal) : exec i s ≠ .refused r := by
  cases i with
  | b32encF v | b32encI v | b32encC v => exact encodeProc_ne_refused _ v _ s r
  | b32decF v | b32decI v | b32decC v => exact decodeProc_ne_refused _ v _ s r
  | htrunc =>
    rw [exec_htrunc]
    exact truncate_ne_refused fun _ _ => nofun
  | hfmt =>
    rw [exec_hfmt]
    split
    · nofun
    · exact formatBin_ne_refused s r
  | hcode => exact truncate_ne_refused fun off bin => formatBin_ne_refused (s.setTruncation off bin) r
  | cfgbuild =>
    show execCfgbuild s ≠ _
    unfold execCfgbuild
    split <;> nofun

theorem portRegWrite_ne_refused (idx w : Word) (s : State) (r : Refusal) : portRegWrite idx w s ≠ .refused r := by
  unfold portRegWrite runCommandWord
  split
  · split
    · exact exec_ne_refused _ s r
    · nofun
  · nofun

theorem portBufWrite_refused_iff {sp : Space} {off : Nat} {b : Byte} {s : State} :
    (∃ r, portBufWrite sp off b s = .refused r) ↔ s.par.size sp ≤ off := by
  unfold portBufWrite
  split <;> simp <;> omega

theorem portBufRead_refused_iff {sp : Space} {off : Nat} {s : State} :
    (∃ r, portBufRead sp off s = .refused r) ↔ s.par.size sp ≤ off := by
  unfold portBufRead
  split <;> simp <;> omega

/-- Settles O11: of the events only the two buffer operations have a refusing branch, the one beyond the buffer. -/
theorem onlyOffsetsBeyondTheBufferAreRefused : Obligations.OnlyOffsetsBeyondTheBufferAreRefused := by
  intro s e rest h
  rw [step_takes h]
  match e with
  | .reset => exact iff_of_false (by simp [takeEvent]) (by simp)
  | .op (.regWrite idx w) =>
    exact iff_of_false (fun ⟨r, hr⟩ => portRegWrite_ne_refused idx w _ r hr) (by simp)
  | .op (.regRead idx) => exact iff_of_false (by simp [takeEvent, portOp, portRegRead]) (by simp)
  | .op (.bufWrite sp off b) => exact portBufWrite_refused_iff.trans (by simp)
  | .op (.bufRead sp off) => exact portBufRead_refused_iff.trans (by simp)

/-! ### The order of events (R65) -/

theorem regWrite_sameHostSide (s : State) (idx w : Word) : SameHostSide s (s.regWrite idx w) := by
  unfold State.regWrite
  split
  · exact setReg_sameHostSide ..
  · exact ⟨rfl, rfl, rfl, rfl⟩

/-- Settles O12: the event is taken off before it takes effect, and the two reads alone hand back a value. -/
theorem eventsAreTakenInOrder : Obligations.EventsAreTakenInOrder := by
  intro s t e rest hport h
  rcases step_cases h with ⟨hnil, -⟩ | ⟨e', rest', hport', hcases⟩
  · rw [hport] at hnil
    cases hnil
  obtain ⟨rfl, rfl⟩ := List.cons.inj (hport.symm.trans hport')
  rcases hcases with ⟨w, i, -, -, hx⟩ | ⟨w, r, -, -, rfl⟩ | ⟨idx, w, -, -, rfl⟩ | ⟨idx, -, rfl⟩ |
    ⟨sp, off, b, -, -, rfl⟩ | ⟨sp, off, -, -, rfl⟩ | ⟨-, rfl⟩
  · obtain ⟨-, -, hp, ht⟩ := exec_sameHostSide hx
    exact ⟨hp, .inl ht⟩
  · exact ⟨rfl, .inl rfl⟩
  · obtain ⟨-, -, hp, ht⟩ := regWrite_sameHostSide { s with port := rest } idx w
    exact ⟨hp, .inl ht⟩
  · exact ⟨rfl, .inr ⟨_, rfl⟩⟩
  · obtain ⟨-, -, hp, ht⟩ := bufWrite_sameHostSide { s with port := rest } sp off b
    exact ⟨hp, .inl ht⟩
  · exact ⟨rfl, .inr ⟨_, rfl⟩⟩
  · exact ⟨rfl, .inl rfl⟩

/-! ### Reset (10_state.md R52) -/

theorem reg_afterReset (par : Params) (stream draw : Nat) (port : List Event) (trace : List ReadValue) (r : Reg) :
    (State.afterReset par stream draw port trace).reg r = 0#32 := by
  cases r <;> rfl

theorem buf_afterReset (par : Params) (stream draw : Nat) (port : List Event) (trace : List ReadValue) (sp : Space) :
    (State.afterReset par stream draw port trace).buf sp = Buffer.unspecified draw := by
  cases sp <;> rfl

/-- Every byte is the free value of the draw the reset takes. -/
theorem byteAt_afterReset (par : Params) (stream draw : Nat) (port : List Event) (trace : List ReadValue) (sp : Space)
    (off : Nat) :
    (State.afterReset par stream draw port trace).byteAt sp off = Config.freeByte stream draw sp off := by
  rw [State.byteAt, buf_afterReset]
  rfl

/-- Settles O13: a reset, at the start or as an event, clears the registers and draws the buffers anew. -/
theorem resetZeroesRegistersAndUnspecifiesBuffers : Obligations.ResetZeroesRegistersAndUnspecifiesBuffers :=
  ⟨reg_afterReset _ _ _ _ _, fun sp => congrArg Buffer.mem (buf_afterReset _ _ _ _ _ sp), fun _ _ h =>
    ⟨_, step_takes h, reg_afterReset _ _ _ _ _, byteAt_afterReset _ _ _ _ _, rfl, rfl, rfl, rfl⟩⟩

end Sys2Proof.Machine
end

section
/-! The statements about every command: the write sets (10_state.md R51), and that every command completes under admitted
parameters (60_exceptions.md R218). -/

namespace Sys2Proof.Machine

/-! ### What a successful command leaves in OUT (R51, R71) -/

theorem exec_succeeded {i : Instr} {s t : State} (h : exec i s = .next t) (hc : statusCode t.status = 0#4) :
    Succeeded t := by
  obtain ⟨e, hne, -, rfl⟩ | hok := exec_raised_or_succeeded h
  · exact absurd hc (statusCode_raise_ne_zero i s hne)
  · exact hok

theorem encodeProc_delivered {cmd : Instr} {v : Variant} {sh : Shape} {s t : State}
    (h : encodeProc cmd v sh s = .next t) (hok : Succeeded t) : ∃ bytes, Delivered s t bytes := by
  obtain ⟨he, rfl⟩ := encodeProc_succeeded h hok.1
  have hguard : (encodeCore v (inputOf s)).length ≤ lenMax := by
    rw [encodeCore_length, inputOf_length]
    exact (encodeError_none.1 he).2.1
  exact ⟨_, (base32Completed_commit sh s (Nat.lt_succ_of_le hguard)).2.1⟩

theorem decodeProc_delivered {cmd : Instr} {v : Variant} {sh : Shape} {s t : State}
    (h : decodeProc cmd v sh s = .next t) (hok : Succeeded t) : ∃ bytes, Delivered s t bytes := by
  have hne {e : Err} (he : e.code ≠ .ok) : raise cmd e s ≠ t := raise_ne_of_status he hok.1
  rcases decodeProc_cases h with ⟨e, he, ht⟩ | ⟨-, -, ⟨c, i, hd, ht⟩ | ⟨bytes, hd, ⟨e, he, ht⟩ | ⟨-, hc⟩⟩⟩
  · exact absurd ht.symm (hne (by simp [(rangeError_some he).1]))
  · exact absurd ht.symm (hne (by rcases decodeCore_err hd with h | h | h <;> simp [decodeErr, h]))
  · exact absurd ht.symm (hne (by rw [(capacityError_some he).1]; split <;> simp))
  · obtain ⟨-, rfl⟩ := commitBytes_cases hc
    exact ⟨_, (base32Completed_commit sh s (length_lt_of_decodeCore_inputOf hd)).2.1⟩

theorem formatBin_delivered {s t : State} (h : formatBin s = .next t) : ∃ bytes, Delivered s t bytes := by
  obtain ⟨-, rfl⟩ := formatBin_cases h
  have h32 := (hotpFormat_string_length_le s.bin.toNat s.cfg).trans_lt (show 16 < 2 ^ 32 by decide)
  exact ⟨_, delivered_of_writeList rfl rfl rfl rfl h32⟩

/-- A command that writes OUT and succeeds delivered bytes. -/
theorem exec_delivered {i : Instr} {s t : State} (h : exec i s = .next t) (hok : Succeeded t)
    (hw : writesOut i = true) : ∃ bytes, Delivered s t bytes := by
  by_cases hb : isBase32 i = true
  · obtain ⟨v, sh, henc | hdec⟩ := exec_base32 hb
    · exact encodeProc_delivered ((henc s).symm.trans h) hok
    · exact decodeProc_delivered ((hdec s).symm.trans h) hok
  · cases exec_ended h with
    | failed e hne _ ht => exact absurd ht.symm (raise_ne_of_status hne hok.1)
    | base32 _ _ hb' _ _ _ => exact absurd hb' hb
    | formatted _ _ hf => exact formatBin_delivered hf
    | coded off bin _ _ hf => exact formatBin_delivered (s := s.setTruncation off bin) hf
    | truncated _ _ hi _ => subst hi; cases hw
    | built hi _ _ => subst hi; cases hw

/-- Behind the bytes delivered OUT reads as before. -/
theorem byteAt_of_delivered {s t : State} {bytes : List Byte} (h : Delivered s t bytes) {off : Nat}
    (hoff : t.outLen.toNat ≤ off) : t.byteAt .out off = s.byteAt .out off := by
  obtain ⟨hlen, -, hrest⟩ := h
  exact hrest off (hlen ▸ hoff)

/-! ### The write sets (R51) -/

/-- The registers R51 lists for a command, and OUT for the two that do not write it. -/
def WritesOnlyItsRow (i : Instr) (s t : State) : Prop :=
  (movesCursor i = false → t.inPos = s.inPos) ∧
    (i ≠ .htrunc → i ≠ .hcode → t.bin = s.bin ∧ t.toff = s.toff) ∧
    (i ≠ .hfmt → i ≠ .hcode → t.code = s.code) ∧
    (i ≠ .cfgbuild → t.cfg = s.cfg) ∧
    (i = .htrunc ∨ i = .cfgbuild → t.out = s.out ∧ t.outLen = s.outLen)

theorem writesOnlyItsRow_raise (i : Instr) (e : Err) (s : State) : WritesOnlyItsRow i s (raise i e s) :=
  ⟨fun _ => raise_inPos .., fun _ _ => ⟨raise_bin .., raise_toff ..⟩, fun _ _ => raise_code .., fun _ => raise_cfg ..,
    fun hi => (raise_keeps_out hi e s).symm⟩

theorem writesOnlyItsRow_commit {i : Instr} {sh : Shape} (hb : isBase32 i = true) (hm : movesCursor i = decide (sh = .C))
    (s : State) (bytes : List Byte) : WritesOnlyItsRow i s (advance sh (s.delivered bytes)).succeed := by
  refine ⟨fun h => ?_, fun _ _ => by simp, fun _ _ => by simp, fun _ => by simp, ?_⟩
  · rw [hm, decide_eq_false_iff_not] at h
    rw [succeed_inPos, advance_inPos, if_neg h, delivered_inPos]
  · rintro (rfl | rfl) <;> cases hb

theorem exec_writesOnlyItsRow {i : Instr} {s t : State} (h : exec i s = .next t) : WritesOnlyItsRow i s t := by
  cases exec_ended h with
  | failed e _ _ ht => exact ht ▸ writesOnlyItsRow_raise i e s
  | base32 sh bytes hb hm _ ht => exact ht ▸ writesOnlyItsRow_commit hb hm s bytes
  | truncated off bin hi ht =>
    subst hi ht
    exact ⟨fun _ => rfl, fun hne => absurd rfl hne, fun _ _ => rfl, fun _ => rfl, fun _ => ⟨rfl, rfl⟩⟩
  | formatted hi _ hf =>
    subst hi
    obtain ⟨-, rfl⟩ := formatBin_cases hf
    exact ⟨fun _ => rfl, fun _ _ => ⟨rfl, rfl⟩, fun hne => absurd rfl hne, fun _ => rfl, by simp⟩
  | coded off bin hi _ hf =>
    subst hi
    obtain ⟨-, rfl⟩ := formatBin_cases hf
    exact ⟨fun _ => rfl, fun _ hne => absurd rfl hne, fun _ hne => absurd rfl hne, fun _ => rfl, by simp⟩
  | built hi _ ht =>
    subst hi ht
    exact ⟨fun _ => rfl, fun _ _ => ⟨rfl, rfl⟩, fun _ _ => rfl, fun hne => absurd rfl hne, fun _ => ⟨rfl, rfl⟩⟩

/-- Settles O54: the registers by the way the command ended, OUT by what was delivered. -/
theorem writeSets : Obligations.WriteSets := by
  intro i s t h
  obtain ⟨hpos, htrunc, hcode, hcfg, hout⟩ := exec_writesOnlyItsRow h
  refine ⟨exec_sameOperands h, exec_sameHostSide h, hpos, htrunc, hcode, hcfg, hout, fun hc h1 h2 off hoff => ?_⟩
  obtain ⟨bytes, hbytes⟩ := exec_delivered h (exec_succeeded h hc) (writesOut_eq_true_iff.2 ⟨h1, h2⟩)
  exact byteAt_of_delivered hbytes hoff

/-! ### Every command completes (R218) -/

/-- The capacity of each shape lies inside OUT, once the operands are in range. -/
theorem le_outSize_of_checks {sh : Shape} {n : Nat} {s : State} (hr : rangeError sh s = none)
    (hc : capacityError sh n s = none) : n ≤ s.par.outSize := by
  obtain ⟨-, -, hcap⟩ := rangeError_none.1 hr
  have hn := capacityError_none.1 hc
  split at hn
  next hsh => exact hn.trans (hcap hsh)
  next => exact hn

theorem encodeProc_total (cmd : Instr) (v : Variant) (sh : Shape) (s : State) : ∃ t, encodeProc cmd v sh s = .next t := by
  cases he : encodeError sh s with
  | some e => exact ⟨_, encodeProc_fails he⟩
  | none =>
    obtain ⟨hr, -, hc⟩ := encodeError_none.1 he
    obtain ⟨t, ht, -⟩ := encodeProc_completes (cmd := cmd) (v := v) he (le_outSize_of_checks hr hc)
    exact ⟨t, ht⟩

theorem decodeProc_total (cmd : Instr) (v : Variant) (sh : Shape) (s : State) : ∃ t, decodeProc cmd v sh s = .next t := by
  cases hr : rangeError sh s with
  | some e => exact ⟨_, decodeProc_fails hr⟩
  | none =>
    cases hd : decodeCore v (inputOf s) with
    | err c i => exact ⟨_, decodeProc_rejects hr hd⟩
    | ok bytes =>
      cases hc : capacityError sh bytes.length s with
      | some e => exact ⟨_, decodeProc_overflows hr hd hc⟩
      | none => exact ⟨_, decodeProc_commits hr hd hc⟩

theorem truncate_total {cmd : Instr} {s : State} {k : Nat → BitVec 31 → Host.Outcome State Fault Refusal}
    (hk : ∀ off bin, ∃ t, k off bin = .next t) : ∃ t, truncate cmd s k = .next t := by
  rw [truncate_eq_afterTruncation]
  cases truncation s.cfg s.hashLen (hashOf s) with
  | error e => exact ⟨_, rfl⟩
  | ok r => exact hk r.1 r.2

theorem execCfgbuild_total (s : State) : ∃ t, execCfgbuild s = .next t := by
  unfold execCfgbuild
  split <;> exact ⟨_, rfl⟩

/-- Only the string of HFMT and HCODE needs the bound of OUT_SIZE: it has at most 16 characters. -/
theorem exec_total {s : State} (hp : s.par.admitted = true) (i : Instr) : ∃ t, exec i s = .next t := by
  cases i with
  | b32encF v | b32encI v | b32encC v => exact encodeProc_total _ v _ s
  | b32decF v | b32decI v | b32decC v => exact decodeProc_total _ v _ s
  | htrunc =>
    rw [exec_htrunc]
    exact truncate_total fun _ _ => ⟨_, rfl⟩
  | hfmt =>
    rw [exec_hfmt]
    split
    · exact ⟨_, rfl⟩
    · exact ⟨_, formatBin_of_admitted hp⟩
  | hcode =>
    rw [exec_hcode]
    exact truncate_total fun off bin => ⟨_, formatBin_of_admitted (s := s.setTruncation off bin) hp⟩
  | cfgbuild => exact execCfgbuild_total s

theorem runCommandWord_total {s : State} (hp : s.par.admitted = true) (w : Word) :
    ∃ t, runCommandWord w s = .next t := by
  unfold runCommandWord
  split
  · exact exec_total hp _
  · exact ⟨_, rfl⟩

/-- No event faults: the port operations and the reset have no faulting branch but the command's. -/
theorem takeEvent_ne_fault {s : State} (hp : s.par.admitted = true) (e : Event) (f : Fault) :
    takeEvent e s ≠ .fault f := by
  match e with
  | .reset => nofun
  | .op (.regRead idx) => nofun
  | .op (.regWrite idx w) =>
    show portRegWrite idx w s ≠ _
    unfold portRegWrite
    split
    · obtain ⟨t, ht⟩ := runCommandWord_total hp w
      rw [ht]
      nofun
    · nofun
  | .op (.bufWrite sp off b) =>
    show portBufWrite sp off b s ≠ _
    unfold portBufWrite
    split <;> nofun
  | .op (.bufRead sp off) =>
    show portBufRead sp off s ≠ _
    unfold portBufRead
    split <;> nofun

/-- Settles O56: every command has a next state, and no other event can fault. -/
theorem noCommandLeavesTheBuffers : Obligations.NoCommandLeavesTheBuffers := by
  refine fun s hp => ⟨exec_total hp, fun f => ?_⟩
  cases hport : s.port with
  | nil =>
    rw [step_idle hport]
    nofun
  | cons e rest =>
    rw [step_takes hport]
    exact takeEvent_ne_fault (s := { s with port := rest }) hp e f

end Sys2Proof.Machine
end

section
/-! The statements about the whole machine: the invariant after reset and over every step (10_state.md section 2,
60_exceptions.md section 1), and that the instances of a system share nothing (20_memory.md R75). -/

namespace Sys2Proof.Machine

/-! ### A sound buffer -/

theorem bufferSound_iff {size draws : Nat} {b : Buffer} :
    bufferSound size draws b = true ↔ Memory.wf b.mem = true ∧ Memory.below size b.mem = true ∧ b.draw < draws := by
  simp only [bufferSound, Bool.and_eq_true, decide_eq_true_eq, and_assoc]

theorem bufferSound_mono {size draws draws' : Nat} {b : Buffer} (hle : draws ≤ draws')
    (h : bufferSound size draws b = true) : bufferSound size draws' b = true := by
  obtain ⟨hwf, hbelow, hdraw⟩ := bufferSound_iff.1 h
  exact bufferSound_iff.2 ⟨hwf, hbelow, hdraw.trans_le hle⟩

theorem bufferSound_unspecified {size draws draw : Nat} (h : draw < draws) :
    bufferSound size draws (Buffer.unspecified draw) = true :=
  bufferSound_iff.2 ⟨rfl, rfl, h⟩

theorem bufferSound_write {size draws off : Nat} {b : Buffer} (c : Byte) (h : bufferSound size draws b = true)
    (hoff : off < size) : bufferSound size draws { b with mem := Memory.write b.mem off c } = true := by
  obtain ⟨hwf, hbelow, hdraw⟩ := bufferSound_iff.1 h
  exact bufferSound_iff.2 ⟨wf_write _ _ _ hwf, below_write _ _ _ _ hbelow hoff, hdraw⟩

theorem bufferSound_writeList {size draws : Nat} {b : Buffer} {bytes : List Byte} (h : bufferSound size draws b = true)
    (hl : bytes.length ≤ size) : bufferSound size draws ⟨Memory.writeList b.mem 0 bytes, b.draw⟩ = true := by
  obtain ⟨hwf, hbelow, hdraw⟩ := bufferSound_iff.1 h
  exact bufferSound_iff.2 ⟨wf_writeList _ _ _ hwf, below_writeList _ _ _ _ hbelow (by omega), hdraw⟩

/-! ### The operations of a command keep the invariant -/

/-- Every code has a legal STATUS under the kind R216 gives it. -/
theorem statusLegal_errStatus (cmd : Instr) (c : ErrCode) : statusLegal (errStatus cmd c) = true := by
  cases c with
  | size =>
    rw [errStatus_size]
    split <;> decide
  | ok | illcmd | range | alloc | illchar | endunit | lastunit | cfgrange | nocfg | hashrange =>
    simp only [errStatus, kindOf]
    decide

theorem draws_le_raise (cmd : Instr) (e : Err) (s : State) : s.draws ≤ (raise cmd e s).draws := by
  rw [raise_draws]
  split <;> omega

/-- An error keeps the invariant: the new draw of OUT lies below the next. -/
theorem sound_raise {s : State} (h : Sound s) (cmd : Instr) {e : Err} (he : e.code ≠ .ok) : Sound (raise cmd e s) where
  params := by rw [raise_par]; exact h.params
  inpSound := by rw [raise_par, raise_inp]; exact bufferSound_mono (draws_le_raise ..) h.inpSound
  outSound := by
    rw [raise_par, raise_out, raise_draws]
    split
    · exact bufferSound_unspecified (Nat.lt_succ_self _)
    · exact h.outSound
  hashSound := by rw [raise_hash]; exact bufferSound_mono (draws_le_raise ..) h.hashSound
  cfg := by rw [raise_cfg]; exact h.cfg
  status := by rw [raise_status]; exact statusLegal_errStatus ..
  einfo := fun h0 => absurd h0 (statusCode_raise_ne_zero cmd s he)
  outLen := by
    rw [raise_par, raise_outLen]
    split
    · exact Nat.zero_le _
    · exact h.outLen
  code := by rw [raise_code]; exact h.code

theorem sound_succeed {s : State} (h : Sound s) : Sound s.succeed :=
  { h with status := rfl, einfo := fun _ => rfl }

theorem sound_raiseIllegal {s : State} (h : Sound s) : Sound (raiseIllegal s) :=
  { h with status := rfl, einfo := fun _ => rfl }

theorem sound_advance {s : State} (h : Sound s) (sh : Shape) : Sound (advance sh s) := by
  cases sh with
  | F | I => exact h
  | C => exact { h with params := h.params }

/-- Delivered bytes lie inside OUT, and so does their number. -/
theorem sound_delivered {s : State} {bytes : List Byte} (h : Sound s) (hl : bytes.length ≤ s.par.outSize) :
    Sound (s.delivered bytes) :=
  { h with
    outSound := bufferSound_writeList h.outSound hl
    outLen := (BitVec.toNat_ofNat ..).trans_le ((Nat.mod_le _ _).trans hl) }

theorem sound_setTruncation {s : State} (h : Sound s) (off : Nat) (bin : BitVec 31) : Sound (s.setTruncation off bin) :=
  { h with params := h.params }

theorem sound_withCode {s : State} {c : Word} (h : Sound s) (hc : c.toNat < 10 ^ 8) : Sound { s with code := c } :=
  { h with code := hc }

theorem sound_withCfg {s : State} {c : Word} (h : Sound s) (hc : cfgLegal c = true) : Sound { s with cfg := c } :=
  { h with cfg := hc }

/-- The code of a legal configuration has at most eight digits (R33). -/
theorem sound_formatBin {s t : State} (h : Sound s) (hv : cfgValid s.cfg = true) (hf : formatBin s = .next t) :
    Sound t := by
  obtain ⟨hl, rfl⟩ := formatBin_cases hf
  have hdigits := cfgDigits_le_of_cfgLegal h.cfg hv
  refine sound_succeed (sound_withCode (sound_delivered h hl) ?_)
  exact (toNat_ofNat_code _ hdigits).trans_lt (code_lt _ hdigits)

theorem sound_exec {i : Instr} {s t : State} (h : Sound s) (hx : exec i s = .next t) : Sound t := by
  cases exec_ended hx with
  | failed e hne _ ht => exact ht ▸ sound_raise h i hne
  | base32 sh bytes _ _ hl ht => exact ht ▸ sound_succeed (sound_advance (sound_delivered h hl) sh)
  | truncated off bin _ ht => exact ht ▸ sound_succeed (sound_setTruncation h off bin)
  | formatted _ hv hf => exact sound_formatBin h hv hf
  | coded off bin _ hv hf => exact sound_formatBin (sound_setTruncation h off bin) hv hf
  | built _ he ht =>
    obtain ⟨h6, h8, hlo, hhi⟩ := stagedError_none.1 he
    exact ht ▸ sound_succeed (sound_withCfg h (cfgLegal_packCfg _ h6 h8 hlo hhi))

/-! ### The events keep the invariant -/

theorem sound_withPort {s : State} (h : Sound s) (rest : List Event) : Sound { s with port := rest } :=
  { h with params := h.params }

theorem sound_withTrace {s : State} (h : Sound s) (trace : List ReadValue) : Sound { s with trace := trace } :=
  { h with params := h.params }

/-- The host writes no register the invariant speaks of (R21). -/
theorem sound_setReg {s : State} (h : Sound s) (w : Word) (r : Reg) : Sound (s.setReg w r) := by
  cases r with
  | cmd | status | einfo | outLen | toff | code | cfg => exact h
  | inPos | inLimit | outCap | hashLen | bin | cfgDigitsIn | cfgOffsetIn | cfgChecksumIn =>
    exact { h with params := h.params }

theorem sound_regWrite {s : State} (h : Sound s) (idx w : Word) : Sound (s.regWrite idx w) := by
  unfold State.regWrite
  split
  · exact sound_setReg h w _
  · exact h

theorem sound_bufWrite {s : State} {sp : Space} {off : Nat} (h : Sound s) (hoff : off < s.par.size sp) (b : Byte) :
    Sound (s.bufWrite sp off b) := by
  cases sp with
  | inp => exact { h with inpSound := bufferSound_write b h.inpSound hoff }
  | out => exact h
  | hash => exact { h with hashSound := bufferSound_write b h.hashSound hoff }

theorem sound_afterReset {par : Params} (stream draw : Nat) (port : List Event) (trace : List ReadValue)
    (h : par.admitted = true) : Sound (State.afterReset par stream draw port trace) where
  params := h
  inpSound := bufferSound_unspecified (Nat.lt_succ_self draw)
  outSound := bufferSound_unspecified (Nat.lt_succ_self draw)
  hashSound := bufferSound_unspecified (Nat.lt_succ_self draw)
  cfg := rfl
  status := rfl
  einfo := fun _ => rfl
  outLen := Nat.zero_le _
  code := by
    show 0 < 10 ^ 8
    decide

/-- Settles O58: by what the step did: idle, one of the port operations, or a reset. -/
theorem stepKeepsSound : Obligations.StepKeepsSound := by
  intro s t h hstep
  rcases step_cases hstep with ⟨-, rfl⟩ | ⟨e, rest, -, ⟨w, i, -, -, hx⟩ | ⟨w, r, -, -, rfl⟩ | ⟨idx, w, -, -, rfl⟩ |
    ⟨idx, -, rfl⟩ | ⟨sp, off, b, -, hoff, rfl⟩ | ⟨sp, off, -, -, rfl⟩ | ⟨-, rfl⟩⟩
  · exact h
  · exact sound_exec (sound_withPort h rest) hx
  · exact sound_raiseIllegal (sound_withPort h rest)
  · exact sound_regWrite (sound_withPort h rest) idx w
  · exact sound_withTrace (sound_withPort h rest) _
  · exact sound_bufWrite (sound_withPort h rest) hoff b
  · exact sound_withTrace (sound_withPort h rest) _
  · exact sound_afterReset _ _ _ _ h.params

/-- Settles O59: the buffers are drawn and the registers 0, so the parameters alone matter. -/
theorem resetIsSound : Obligations.ResetIsSound := by
  refine ⟨sound_afterReset _ _ _ _ (by decide), fun _ _ _ _ _ => sound_afterReset _ _ _ _, fun ps h => ?_⟩
  refine ⟨?_, System.reset_params ps, fun s hs => ?_⟩
  · rw [System.admitted, System.reset_params, h]
  · obtain ⟨par, k, hmem, rfl⟩ := System.mem_reset hs
    exact sound_afterReset _ _ _ _ (Params.admitted_of_mem h hmem)

/-! ### The instances of a system (R75) -/

/-- Replacing an instance by one of the same parameters keeps the system's. -/
theorem System.params_set {S : System} {k : Nat} {s t : State} (hs : S[k]? = some s) (hpar : t.par = s.par) :
    System.params (S.set k t) = System.params S := by
  obtain ⟨hk, rfl⟩ := List.getElem?_eq_some_iff.1 hs
  rw [System.params, List.map_set, hpar, ← List.getElem_map (f := State.par) (h := by simpa using hk),
    List.set_getElem_self]
  rfl

/-- Settles O60: a system step replaces one instance by what its own step answers, which has the same parameters. -/
theorem instancesShareNothing : Obligations.InstancesShareNothing := by
  intro S T k h
  obtain ⟨s, t, hs, ht, rfl⟩ := System.step_cases h
  have hparams := System.params_set hs (step_par ht)
  have hk : k < S.length := (List.getElem?_eq_some_iff.1 hs).1
  refine ⟨List.length_set, fun j hj => List.getElem?_set_ne hj.symm, ⟨s, t, hs, ht, List.getElem?_set_self hk⟩, hparams,
    fun hadm => ?_⟩
  rwa [System.admitted, hparams]

end Sys2Proof.Machine
end
